-- ==== Sys2Proof/Word.lean ====
section
/-! DEFINITION. The byte, the one word width of the block (R10). -/

namespace Sys2Proof

/-- A byte: 8 bits, bit 7 the most significant, unsigned (R10). -/
abbrev Byte := BitVec 8

end Sys2Proof
end

