-- ==== Sys2Proof/Config.lean ====
section
/-! DEFINITION. The fixed constants (R7) and the parameters (R8). No constant of the block is a free value: what
the spec leaves open is a parameter, held in `State.params` (log 1), or the transport's acceptance, an input (log 4). -/

namespace Sys2Proof

namespace Config

/-- `START_BYTE` (R7): 0x73, ASCII 's'. -/
def startByte : Byte := 0x73

/-- `CODEC_DELIM` (R7): the value the codec removes from a payload. -/
def codecDelim : Byte := 0x00

/-- `MAX_PAYLOAD` (R7): the most decoded payload bytes in one frame. -/
def maxPayload : Nat := 254

/-- `MAX_ENCODED` (R7): the most encoded payload bytes in one frame. -/
def maxEncoded : Nat := maxPayload + 1

/-- `NUM_IFACE` (R7): interface identifiers, a 4-bit field. -/
def numIface : Nat := 16

/-- `NUM_ID` (R7): message identifiers per interface, a 4-bit field. -/
def numId : Nat := 16

/-- `HDR_LEN` (R7): header bytes. -/
def hdrLen : Nat := 2

end Config

/-- `HDR1_LAYOUT` (R8, R77): which nibble of `hdr1` is the interface identifier. -/
inductive Hdr1Layout where
  | ifaceHigh
  | ifaceLow
deriving DecidableEq, Repr

/-- The parameters a model takes as arguments (R8). They are fixed before reset and never change (R251 (1)). -/
structure Params where
  /-- `RX_CAP`, bytes of `rx_buf`. -/
  rxCap : Nat
  /-- `TX_CAP`, bytes of `tx_buf`. -/
  txCap : Nat
  /-- `NUM_PORTS`, instances of the block. -/
  numPorts : Nat
  /-- `HDR1_LAYOUT`. -/
  hdr1Layout : Hdr1Layout
  /-- `FEED_N`, the most bytes the host reads in one chunk; only `RX_FEED` uses it. -/
  feedN : Nat
deriving DecidableEq, Repr

/-- The ranges of R8. -/
def Params.wf (P : Params) : Bool :=
  decide (1 ≤ P.rxCap) && decide (1 ≤ P.txCap) && decide (P.txCap ≤ 65535) && decide (1 ≤ P.numPorts)

/-- The parameters of `State.reset`. `RX_CAP` and `HDR1_LAYOUT` are R8's values for this hardware. `TX_CAP` (the test
vectors' value), `NUM_PORTS` and `FEED_N` are OPEN in R8: DESIGN CHOICE, unsafe, log 2. -/
def Params.default : Params :=
  { rxCap := 512, txCap := 16, numPorts := 1, hdr1Layout := .ifaceHigh, feedN := 1 }

end Sys2Proof
end

