-- ==== Sys2Proof/Syntax.lean ====
section
/-! DEFINITION. The commands of command set v1 (R72), one constructor per row of spec/opcode_table.json. -/

namespace Sys2Proof

/-- A command with its operands, as R72 lays them out: the length operand byte is kept beside the data bytes. -/
inductive Instr where
  /-- `ENC n, p` (R102). -/
  | enc (n : Byte) (p : List Byte)
  /-- `DEC m, e` (R103). -/
  | dec (m : Byte) (e : List Byte)
  /-- `RX_BYTE b` (R130). -/
  | rxByte (b : Byte)
  /-- `RX_RESET` (R138). -/
  | rxReset
  /-- `TX_PUT hdr1, size, p` (R171). -/
  | txPut (hdr1 size : Byte) (p : List Byte)
  /-- `TX_SEND` (R172). It has no operand: the acceptance arrives on the transport-tx port (R72). -/
  | txSend
  /-- `STATUS` (R200). -/
  | status
deriving DecidableEq, Repr

/-- The seven assigned opcodes (R72). -/
inductive Opcode where
  | enc | dec | rxByte | rxReset | txPut | txSend | status
deriving DecidableEq, Repr

/-- What a command packet stands for: a command of the opcode table, or an unassigned opcode, which R75 and R201 give a
response but which is no row of the table. -/
inductive Command where
  | instr (i : Instr)
  | illegal (op : Byte)
deriving DecidableEq, Repr

/-- Why a byte sequence is no command packet (I8: "it is not a command"). -/
inductive DecodeError where
  /-- Fewer bytes than the opcode and the length operand call for (R84). -/
  | truncated
  /-- More bytes than the opcode and the length operand call for (R84). -/
  | overlong
deriving DecidableEq, Repr

end Sys2Proof
end

