-- ==== Sys2Proof/WellFormed.lean ====
section
/-! DEFINITION. Which terms of `Instr` a packet can carry: the length operand is "followed by exactly that many data
bytes" (R72). The decoder gives only these (log 17). -/

namespace Sys2Proof

/-- The number of data bytes is the one the length operand states (R72). Every operand value is admitted, the out-of-range
ones too: R72 has the packet carry them and the command reject them. -/
def Instr.wf : Instr → Bool
  | .enc n p => p.length == n.toNat
  | .dec m e => e.length == m.toNat
  | .rxByte _ => true
  | .rxReset => true
  | .txPut _ size p => p.length == size.toNat
  | .txSend => true
  | .status => true

end Sys2Proof
end

