-- ==== Sys2Proof/Decode.lean ====
section
/-! DEFINITION. From bytes to commands and back (R71, R72, R75, R84), written from the format table of R72. -/

namespace Sys2Proof

/-- The opcode byte of each command (R72). -/
def Opcode.toByte : Opcode → Byte
  | .enc => 0x01
  | .dec => 0x02
  | .rxByte => 0x10
  | .rxReset => 0x11
  | .txPut => 0x20
  | .txSend => 0x21
  | .status => 0x30

/-- The command an opcode byte is assigned to; `none` for the 249 unassigned values (R75). -/
def Opcode.ofByte (op : Byte) : Option Opcode :=
  if op = 0x01 then some .enc
  else if op = 0x02 then some .dec
  else if op = 0x10 then some .rxByte
  else if op = 0x11 then some .rxReset
  else if op = 0x20 then some .txPut
  else if op = 0x21 then some .txSend
  else if op = 0x30 then some .status
  else none

/-- A command's form for unassigned opcodes is well formed when the opcode is unassigned (R75). -/
def Command.wf : Command → Bool
  | .instr i => i.wf
  | .illegal op => (Opcode.ofByte op).isNone

/-- Exactly `k` bytes from the front, with what follows them; too few bytes is a truncated packet (I8). -/
def takeBytes (k : Nat) (bs : List Byte) : Except DecodeError (List Byte × List Byte) :=
  if bs.length < k then .error .truncated else .ok (bs.take k, bs.drop k)

/-- Decode the command packet at the front of a byte sequence, with the bytes that follow it. Total on any bytes. How many
bytes a packet has is fixed by its opcode and its length operand alone (R84). -/
def decode : List Byte → Except DecodeError (Command × List Byte)
  | [] => .error .truncated
  | op :: r =>
    match Opcode.ofByte op, r with
    | none, r => .ok (.illegal op, r)
    | some .rxReset, r => .ok (.instr .rxReset, r)
    | some .txSend, r => .ok (.instr .txSend, r)
    | some .status, r => .ok (.instr .status, r)
    | some .rxByte, b :: r => .ok (.instr (.rxByte b), r)
    | some .enc, n :: r =>
      match takeBytes n.toNat r with
      | .error e => .error e
      | .ok (p, r) => .ok (.instr (.enc n p), r)
    | some .dec, m :: r =>
      match takeBytes m.toNat r with
      | .error e => .error e
      | .ok (p, r) => .ok (.instr (.dec m p), r)
    | some .txPut, h :: n :: r =>
      match takeBytes n.toNat r with
      | .error e => .error e
      | .ok (p, r) => .ok (.instr (.txPut h n p), r)
    | some .rxByte, [] => .error .truncated
    | some .enc, [] => .error .truncated
    | some .dec, [] => .error .truncated
    | some .txPut, [] => .error .truncated
    | some .txPut, [_] => .error .truncated

/-- Decode one whole packet, as the command port presents it: a truncated or over-long packet is not a command (I8). -/
def decodePacket (bs : List Byte) : Except DecodeError Command :=
  match decode bs with
  | .error e => .error e
  | .ok (c, []) => .ok c
  | .ok (_, _ :: _) => .error .overlong

/-- The packet of a command (R72). -/
def encode : Instr → List Byte
  | .enc n p => Opcode.enc.toByte :: n :: p
  | .dec m e => Opcode.dec.toByte :: m :: e
  | .rxByte b => [Opcode.rxByte.toByte, b]
  | .rxReset => [Opcode.rxReset.toByte]
  | .txPut h n p => Opcode.txPut.toByte :: h :: n :: p
  | .txSend => [Opcode.txSend.toByte]
  | .status => [Opcode.status.toByte]

/-- The packet of a command or of an unassigned opcode, which is 1 byte long (R75). -/
def Command.encode : Command → List Byte
  | .instr i => Sys2Proof.encode i
  | .illegal op => [op]

/-- How the command port finds a packet's length (R84): from byte 0 and, for `ENC`, `DEC` and `TX_PUT`, the length operand.
`none` where the bytes end before the length operand. -/
def packetLength : List Byte → Option Nat
  | [] => none
  | op :: r =>
    match Opcode.ofByte op, r with
    | some .rxByte, _ => some 2
    | some .enc, n :: _ => some (2 + n.toNat)
    | some .dec, m :: _ => some (2 + m.toNat)
    | some .txPut, _ :: n :: _ => some (3 + n.toNat)
    | some .enc, [] => none
    | some .dec, [] => none
    | some .txPut, [] => none
    | some .txPut, [_] => none
    | some .rxReset, _ => some 1
    | some .txSend, _ => some 1
    | some .status, _ => some 1
    | none, _ => some 1

/-- The longest packet: `TX_PUT` with `size` = 255 (R72: 3 + size). -/
def longestPacket : Nat := 258

/-- The first `k` bytes of a number, the byte of bits 7..0 first (the numbering of spec/opcode_table.json: bit 0 is the least
significant bit of byte 0). -/
def bytesOfNat : Nat → Nat → List Byte
  | 0, _ => []
  | k + 1, w => BitVec.ofNat 8 w :: bytesOfNat k (w / 256)

/-- The bytes of a table word: `nbits` bits of `w` in whole bytes, then zeros up to the longest packet. -/
def tableBytes (nbits w : Nat) : List Byte :=
  bytesOfNat ((nbits + 7) / 8) w ++ List.replicate longestPacket 0x00

/-- The packet a table word stands for: the bytes above, cut where R84 ends the packet. -/
def tablePacket (nbits w : Nat) : List Byte :=
  (tableBytes nbits w).take ((packetLength (tableBytes nbits w)).getD 1)

/-- The instruction the decoder reads from a table word; `none` for an unassigned opcode. -/
def decodeTableWord (nbits w : Nat) : Option Instr :=
  match decodePacket (tablePacket nbits w) with
  | .ok (.instr i) => some i
  | .ok (.illegal _) => none
  | .error _ => none

end Sys2Proof
end

