-- ==== Sys2Proof/Machine/State.lean ====
section
/-! DEFINITION. The state of the machine as plain data: the architectural state of one instance (R21 to R28), the
instances (R20), what has left them on their ports (R38, R70), and what the outside will present next (R17, R70). -/

namespace Sys2Proof.Machine

/-- `ps`, the four parser states (R21). -/
inductive PState where
  | waitForStart
  | getHeader
  | getSize
  | getData
deriving DecidableEq, Repr

/-- The two buffers `BufRead` and `BufWrite` reach (R12). -/
inductive BufName where
  | rxBuf
  | txBuf
deriving DecidableEq, Repr

/-- The bytes of one buffer: (index, byte) pairs, indices strictly rising. An index that is not listed has no value: nothing
has written it since reset (R37, log 6). -/
abbrev Memory := List Host.Cell

/-- The architectural state of one instance of the block. -/
structure Block where
  /-- `ps` (R21). -/
  ps : PState
  /-- `hdr1` (R22). -/
  hdr1 : Byte
  /-- `size` (R23). -/
  size : Byte
  /-- `rx_idx` (R24). -/
  rxIdx : Nat
  /-- `rx_buf` (R25). -/
  rxBuf : Memory
  /-- `tx_buf` (R26). -/
  txBuf : Memory
  /-- `tx_head` (R27). -/
  txHead : Nat
  /-- `tx_count` (R28). -/
  txCount : Nat
deriving DecidableEq, Repr

/-- The reset values of R36. The buffers hold no specified value (R37): nothing is listed. -/
def Block.reset : Block :=
  { ps := .waitForStart, hdr1 := 0x00, size := 0x00, rxIdx := 0, rxBuf := [], txBuf := [], txHead := 0, txCount := 0 }

/-- A delivery record (R82). -/
structure DeliveryRecord where
  port : Nat
  hdr1 : Byte
  iface : BitVec 4
  id : BitVec 4
  size : Byte
  payload : List Byte
deriving DecidableEq, Repr

/-- What leaves an instance on one of its output ports (R13, R70). -/
inductive Output where
  /-- A response packet on the response port (R73). -/
  | response (bytes : List Byte)
  /-- A record on the delivery port (R136). -/
  | delivery (rec : DeliveryRecord)
  /-- A byte on the transport-tx port (R13 `emit_tx`). -/
  | tx (b : Byte)
deriving DecidableEq, Repr

/-- One instance: its state, and what has left its output ports so far, oldest first. The outputs are the observation of R38,
not state of the block: no command reads them (log 5). -/
structure Port where
  block : Block
  out : List Output
deriving DecidableEq, Repr

/-- What the outside presents to the machine in one step (R17, R70). -/
inductive Input where
  /-- The host presents a command packet to instance `port`; `accept` is the acceptance `A` the transport of that instance
  offers meanwhile, any natural (R9); only `TX_SEND` looks at it. -/
  | command (port : Nat) (packet : List Byte) (accept : Nat)
  /-- The platform asserts the reset input, which all instances share (R230, R250). -/
  | reset
  /-- Reset asserted while the packet was in progress on instance `port` (R250, I12). The packet need be no command and the
  instance need not exist: DESIGN CHOICE, log 27. -/
  | resetDuring (port : Nat) (packet : List Byte)
  /-- The host presents a packet to instance `port` while another command is in progress on it (R253, I9). -/
  | overlap (port : Nat) (packet : List Byte)
deriving DecidableEq, Repr

/-- The whole machine. -/
structure State where
  /-- The parameters (R8), fixed (R251 (1)); carried here so that a statement covers every value (log 1). -/
  params : Params
  /-- The instances, numbered from 0 (R20). -/
  ports : List Port
  /-- What the outside will present, oldest first: one entry a step (log 3). -/
  inputs : List Input
  /-- The instance the command in progress was presented to (log 4). -/
  port : Nat
  /-- The acceptance `A` the transport offers during the command in progress (R9, log 4). -/
  accept : Nat
  /-- Whether reset has been asserted since power-up (R251 (2), log 11). -/
  resetSeen : Bool
deriving DecidableEq, Repr

/-- The machine right after reset (R36, R250) for given parameters: every instance at its reset values, nothing emitted. -/
def State.resetWith (P : Params) : State :=
  { params := P
    ports := List.replicate P.numPorts { block := Block.reset, out := [] }
    inputs := []
    port := 0
    accept := 0
    resetSeen := true }

/-- The machine right after reset, with the parameter values of log 2. -/
def State.reset : State := State.resetWith Params.default

/-- Reasons to stop with a fault. The block itself has no trap (R220); both stand for accesses the spec says never occur. -/
inductive Fault where
  /-- Raised by `bufRead` and `bufWrite` for an index outside the buffer: "never occurs" (R12). Safe: a true claim may become
  unprovable in states no run reaches, no false claim becomes provable of runs (log 6). -/
  | bufIndex (buf : BufName) (i : Nat)
  /-- Raised by `bufRead` for a byte nothing has written: "That fault can never fire" (R37). Safe (log 6). -/
  | unwrittenByte (buf : BufName) (i : Nat)
deriving DecidableEq, Repr

/-- Reasons to have no meaning. All are safe: the machine stops where the spec gives no behaviour. -/
inductive Refusal where
  /-- A command with no meaning in the model; raised only in an arm of `exec`. Safe. -/
  | notModelled (mnemonic : String)
  /-- Raised by the fetch: fewer bytes than the packet calls for, "refuse: it is not a command" (I8). Safe (log 9). -/
  | truncatedPacket
  /-- Raised by the fetch: more bytes than the packet calls for, "refuse: it is not a command" (I8). Safe (log 9). -/
  | overlongPacket
  /-- Raised by the fetch: a command while another is in progress, "A model refuses it" (R253, I9). Safe (log 10). -/
  | overlappingCommand
  /-- Raised by the fetch: a command before the first reset, "refuse" (R251, I10). Safe (log 11). -/
  | beforeReset
  /-- Raised by `State.onPort`: instances are numbered 0 to NUM_PORTS - 1 (R20). Safe (log 12). -/
  | noSuchPort
deriving DecidableEq, Repr

/-- What a command does to its instance: the new state, and what leaves the output ports, in order (R13). -/
structure Effect where
  block : Block
  out : List Output
deriving DecidableEq, Repr

/-- What the fetch finds at the command and reset ports. -/
inductive Fetched where
  /-- Nothing is presented. -/
  | idle
  /-- Reset is asserted; the state is the one with the input taken. -/
  | reset (s : State)
  /-- A command to run, in the state with the input taken. -/
  | run (i : Instr) (s : State)
  /-- An unassigned opcode, in the state with the input taken. -/
  | illegal (op : Byte) (s : State)
  /-- Something the spec gives no behaviour for. -/
  | refuse (r : Refusal)
deriving DecidableEq, Repr

end Sys2Proof.Machine
end

