-- ==== Sys2Proof/Machine/Flags.lean ====
section
/-! DEFINITION. The block has no condition flags (R32). What a command reports instead: the status code of its response (R74)
and the event code of `RX_BYTE` (R81). -/

namespace Sys2Proof.Machine

/-- The status codes that are returned (R74); 0x06 to 0xFF are reserved. -/
inductive StatusCode where
  | ok
  | errLen
  | errMalformed
  | errFull
  | pending
  | errIllegal
deriving DecidableEq, Repr

/-- The values of R74. -/
def StatusCode.toByte : StatusCode → Byte
  | .ok => 0x00
  | .errLen => 0x01
  | .errMalformed => 0x02
  | .errFull => 0x03
  | .pending => 0x04
  | .errIllegal => 0x05

/-- The event codes of `RX_BYTE` (R81). -/
inductive Event where
  | none
  | deliver
  | dropSize
  | dropDecode
deriving DecidableEq, Repr

/-- The values of R81. -/
def Event.toByte : Event → Byte
  | .none => 0x00
  | .deliver => 0x01
  | .dropSize => 0x02
  | .dropDecode => 0x03

/-- The values of `ps` (R21), as `STATUS` shows them: bits 7:2 read 0 (R33). -/
def PState.toByte : PState → Byte
  | .waitForStart => 0x00
  | .getHeader => 0x01
  | .getSize => 0x02
  | .getData => 0x03

end Sys2Proof.Machine
end

