-- ==== Sys2Proof/Machine/Operands.lean ====
section
/-! DEFINITION. The fields of packets, frames and records: bytes, 16-bit counts (R53), the nibbles of `hdr1` (R77) and the
frame length (R79). -/

namespace Sys2Proof.Machine

/-- A natural as one byte, bits 7:0. -/
def byteOf (n : Nat) : Byte := BitVec.ofNat 8 n

/-- A 16-bit response field, little-endian: bits 7:0 first, then bits 15:8 (R53). -/
def u16le (n : Nat) : List Byte := [byteOf n, byteOf (n / 256)]

/-- `hdr1[7:4]`. -/
def highNibble (h : Byte) : BitVec 4 := h.extractLsb' 4 4

/-- `hdr1[3:0]`. -/
def lowNibble (h : Byte) : BitVec 4 := h.extractLsb' 0 4

/-- `IFACE(h)` (R77, R136). -/
def ifaceOf : Hdr1Layout → Byte → BitVec 4
  | .ifaceHigh, h => highNibble h
  | .ifaceLow, h => lowNibble h

/-- `ID(h)` (R77, R136). -/
def idOf : Hdr1Layout → Byte → BitVec 4
  | .ifaceHigh, h => lowNibble h
  | .ifaceLow, h => highNibble h

/-- `pack(iface, id)` following `HDR1_LAYOUT` (R77, R87). -/
def packHdr1 : Hdr1Layout → BitVec 4 → BitVec 4 → Byte
  | .ifaceHigh, iface, id => iface ++ id
  | .ifaceLow, iface, id => id ++ iface

/-- `FRAME_LEN(size)` (R79). -/
def frameLen (size : Nat) : Nat := if size = 0 then 3 else size + 4

end Sys2Proof.Machine
end

