-- ==== Sys2Proof/Machine/Ops.lean ====
section
/-! DEFINITION. The operations the commands share: buffer access (R12), the ring (R29), answering a command on its instance
(R13, R20), and reset (R250). The spec has no exception to take and none to return from (R220, R225): every error is a
response, so there is no such operation here. -/

namespace Sys2Proof.Machine

/-! ### A buffer's bytes -/

/-- The byte at an index; `none` where nothing has been written. -/
def Memory.read : Memory → Nat → Option Byte
  | [], _ => none
  | (j, v) :: m, i => if i = j then some v else Memory.read m i

/-- Write one byte, keeping the indices strictly rising. -/
def Memory.write : Memory → Nat → Byte → Memory
  | [], i, v => [(i, v)]
  | (j, w) :: m, i, v =>
    if i < j then (i, v) :: (j, w) :: m
    else if i = j then (i, v) :: m
    else (j, w) :: Memory.write m i v

/-- Every index of the list is above `i`. -/
def Memory.above (i : Nat) (m : Memory) : Bool := m.all fun c => decide (i < c.1)

/-- The canonical form: indices strictly rising. An unlisted byte has no value, so no entry can repeat it. -/
def Memory.wf : Memory → Bool
  | [] => true
  | (j, _) :: m => Memory.above j m && Memory.wf m

/-- `BufRead(buf, i)` (R12) of a buffer with `cap` bytes. -/
def bufRead (buf : BufName) (cap : Nat) (m : Memory) (i : Nat) : Except Fault Byte :=
  if i < cap then
    match Memory.read m i with
    | some v => .ok v
    | none => .error (.unwrittenByte buf i)
  else .error (.bufIndex buf i)

/-- `BufWrite(buf, i, v)` (R12) of a buffer with `cap` bytes. -/
def bufWrite (buf : BufName) (cap : Nat) (m : Memory) (i : Nat) (v : Byte) : Except Fault Memory :=
  if i < cap then .ok (Memory.write m i v) else .error (.bufIndex buf i)

/-- `[ BufRead(buf, i) for i in is ]`. -/
def bufReadAll (buf : BufName) (cap : Nat) (m : Memory) : List Nat → Except Fault (List Byte)
  | [] => .ok []
  | i :: is =>
    match bufRead buf cap m i with
    | .error e => .error e
    | .ok v =>
      match bufReadAll buf cap m is with
      | .error e => .error e
      | .ok vs => .ok (v :: vs)

/-- `BufWrite(buf, i, v)` for each pair in order. -/
def bufWriteAll (buf : BufName) (cap : Nat) (m : Memory) : List (Nat × Byte) → Except Fault Memory
  | [] => .ok m
  | (i, v) :: ivs =>
    match bufWrite buf cap m i v with
    | .error e => .error e
    | .ok m' => bufWriteAll buf cap m' ivs

/-- The `k` ring indices from `start`: `(start + j) mod cap` for `j` in `0 .. k-1` (R29, R171, R172). -/
def ringIndices (cap start k : Nat) : List Nat := (List.range k).map fun j => (start + j) % cap

/-! ### Views of one instance -/

/-- `tx_free` (R29). -/
def Block.txFree (P : Params) (k : Block) : Nat := P.txCap - k.txCount

/-- `tx_tail` (R29). -/
def Block.txTail (P : Params) (k : Block) : Nat := (k.txHead + k.txCount) % P.txCap

/-- `Q`, the queue contents, oldest first (R29). -/
def Block.queue (P : Params) (k : Block) : Except Fault (List Byte) :=
  bufReadAll .txBuf P.txCap k.txBuf (ringIndices P.txCap k.txHead k.txCount)

/-! ### Answering a command -/

/-- A command that only answers: no state written, one response. -/
def Block.answer (k : Block) (response : List Byte) : Effect := { block := k, out := [.response response] }

/-- Put an instance back at the selected place. -/
def State.putPort (s : State) (p : Port) : State := { s with ports := s.ports.set s.port p }

/-- Apply a command to the selected instance: it reads and writes that instance alone (R20), its outputs leave in order (R13),
and it is all or nothing (R12). -/
def State.onPort (s : State) (f : Block → Except Fault Effect) : Host.Outcome State Fault Refusal :=
  match s.ports[s.port]? with
  | none => .refused .noSuchPort
  | some p =>
    match f p.block with
    | .error r => .fault r
    | .ok e => .next (s.putPort { block := e.block, out := p.out ++ e.out })

/-! ### Reset and inputs -/

/-- Reset of one instance (R36, R250): it emits nothing, and what has left the instance has left (log 7). -/
def Port.reset (p : Port) : Port := { p with block := Block.reset }

/-- Reset (R250): every instance, by the common reset input (R230). -/
def State.resetAll (s : State) : State := { s with ports := s.ports.map Port.reset, resetSeen := true }

/-- Take the oldest input: what is left of the inputs. -/
def State.withInputs (s : State) (inputs : List Input) : State := { s with inputs := inputs }

/-- The step belongs to instance `port`, whose transport offers `accept`. -/
def State.select (s : State) (port accept : Nat) : State := { s with port := port, accept := accept }

end Sys2Proof.Machine
end

