-- ==== Sys2Proof/Machine/Control.lean ====
section
/-! DEFINITION. `STATUS` (R200) and the unassigned opcodes (R201). -/

namespace Sys2Proof.Machine

/-- The register view of R33, as the response of R200. -/
def statusResponse (P : Params) (k : Block) : List Byte :=
  [StatusCode.ok.toByte, k.ps.toByte, k.hdr1, k.size, byteOf k.rxIdx] ++ u16le k.txCount ++ u16le (k.txFree P)

/-- `STATUS` (R200): no state written. -/
def execStatus (s : State) : Host.Outcome State Fault Refusal :=
  s.onPort fun k => .ok (k.answer (statusResponse s.params k))

/-- An unassigned opcode (R201, R75): no state written, `[ERR_ILLEGAL]`, whatever the opcode. -/
def execIllegal (_op : Byte) (s : State) : Host.Outcome State Fault Refusal :=
  s.onPort fun k => .ok (k.answer [StatusCode.errIllegal.toByte])

end Sys2Proof.Machine
end

