-- ==== Sys2Proof/Machine/Codec.lean ====
section
/-! DEFINITION. The frame codec: `COBS_ENCODE`, `COBS_DECODE` (R100, R101) and the commands `ENC`, `DEC` (R102, R103). -/

namespace Sys2Proof.Machine

/-- The code byte of a group of `run.length` nonzero bytes, then those bytes (R100). -/
def cobsGroup (run : List Byte) : List Byte := byteOf (run.length + 1) :: run

/-- The loop of R100 over `q`, with `run` the nonzero bytes since the last 0x00. -/
def cobsEncodeLoop : List Byte → List Byte → List Byte
  | _, [] => []
  | run, b :: q =>
    if b = Config.codecDelim then cobsGroup run ++ cobsEncodeLoop [] q
    else cobsEncodeLoop (run ++ [b]) q

/-- `COBS_ENCODE(p)` (R100), with the virtual terminator at the end of `p`. -/
def cobsEncode (p : List Byte) : List Byte := cobsEncodeLoop [] (p ++ [Config.codecDelim])

/-- The loop of R101 on the bytes from index `i` on; each pass takes one group, so as many passes as bytes are enough. -/
def cobsDecodeLoop : Nat → List Byte → Option (List Byte)
  | 0, _ => some []
  | _ + 1, [] => some []
  | n + 1, c :: r =>
    if r.length + 1 < c.toNat then none
    else if r.length + 1 = c.toNat then some (r.take (c.toNat - 1))
    else
      match cobsDecodeLoop n (r.drop (c.toNat - 1)) with
      | none => none
      | some out => some (r.take (c.toNat - 1) ++ (if c = 0xFF then [] else [Config.codecDelim]) ++ out)

/-- `COBS_DECODE(e)` (R101); `none` is `FAIL`. -/
def cobsDecode (e : List Byte) : Option (List Byte) :=
  if e.contains Config.codecDelim then none else cobsDecodeLoop e.length e

/-- The response of `ENC` (R102, R73). -/
def encResponse (n : Byte) (p : List Byte) : List Byte :=
  if n.toNat < 1 ∨ 254 < n.toNat then [StatusCode.errLen.toByte, 0x00]
  else StatusCode.ok.toByte :: byteOf (n.toNat + 1) :: cobsEncode p

/-- The response of `DEC` (R103, R73), its checks in the order of R223. -/
def decResponse (m : Byte) (e : List Byte) : List Byte :=
  if m.toNat < 1 then [StatusCode.errLen.toByte, 0x00]
  else
    match cobsDecode e with
    | none => [StatusCode.errMalformed.toByte, 0x00]
    | some r => StatusCode.ok.toByte :: byteOf r.length :: r

/-- `ENC n, p` (R102): no state written. -/
def execEnc (n : Byte) (p : List Byte) (s : State) : Host.Outcome State Fault Refusal :=
  s.onPort fun k => .ok (k.answer (encResponse n p))

/-- `DEC m, e` (R103): no state written. -/
def execDec (m : Byte) (e : List Byte) (s : State) : Host.Outcome State Fault Refusal :=
  s.onPort fun k => .ok (k.answer (decResponse m e))

end Sys2Proof.Machine
end

