-- ==== Sys2Proof/Machine/Parser.lean ====
section
/-! DEFINITION. The port parser: `RX_BYTE` (R130 to R136) and `RX_RESET` (R138). -/

namespace Sys2Proof.Machine

/-- What an arm of `RX_BYTE` leaves: the block, the event, and the delivery, if any. -/
structure ArmEffect where
  block : Block
  ev : Event
  out : List Output
deriving DecidableEq, Repr

/-- `deliver(h, s, r)` (R136) of instance `port`. -/
def deliver (P : Params) (port : Nat) (h size : Byte) (r : List Byte) : Output :=
  .delivery
    { port := port, hdr1 := h, iface := ifaceOf P.hdr1Layout h, id := idOf P.hdr1Layout h, size := size, payload := r }

/-- `ARM_WAIT(b)` (R131). -/
def armWait (b : Byte) (k : Block) : ArmEffect :=
  if b = Config.startByte then { block := { k with ps := .getHeader }, ev := .none, out := [] }
  else { block := k, ev := .none, out := [] }

/-- `ARM_HEADER(b)` (R132). -/
def armHeader (b : Byte) (k : Block) : ArmEffect :=
  { block := { k with hdr1 := b, ps := .getSize }, ev := .none, out := [] }

/-- `ARM_SIZE(b)` (R133). -/
def armSize (P : Params) (port : Nat) (b : Byte) (k : Block) : ArmEffect :=
  if b.toNat = 255 ∨ P.rxCap < b.toNat + 1 then
    { block := { k with size := b, ps := .waitForStart }, ev := .dropSize, out := [] }
  else if b.toNat = 0 then
    { block := { k with size := b, ps := .waitForStart }, ev := .deliver, out := [deliver P port k.hdr1 0x00 []] }
  else { block := { k with size := b, rxIdx := 0, ps := .getData }, ev := .none, out := [] }

/-- `COMPLETE()` (R135). -/
def complete (P : Params) (port : Nat) (k : Block) : Except Fault ArmEffect :=
  match bufReadAll .rxBuf P.rxCap k.rxBuf (List.range (k.size.toNat + 1)) with
  | .error r => .error r
  | .ok e =>
    match cobsDecode e with
    | none => .ok { block := { k with ps := .waitForStart }, ev := .dropDecode, out := [] }
    | some r =>
      .ok { block := { k with ps := .waitForStart }, ev := .deliver, out := [deliver P port k.hdr1 k.size r] }

/-- `ARM_DATA(b)` (R134). -/
def armData (P : Params) (port : Nat) (b : Byte) (k : Block) : Except Fault ArmEffect :=
  match bufWrite .rxBuf P.rxCap k.rxBuf k.rxIdx b with
  | .error r => .error r
  | .ok m =>
    if k.rxIdx + 1 = k.size.toNat + 1 then complete P port { k with rxBuf := m, rxIdx := k.rxIdx + 1 }
    else .ok { block := { k with rxBuf := m, rxIdx := k.rxIdx + 1 }, ev := .none, out := [] }

/-- The `case ps of` of R130. -/
def rxByteArm (P : Params) (port : Nat) (b : Byte) (k : Block) : Except Fault ArmEffect :=
  match k.ps with
  | .waitForStart => .ok (armWait b k)
  | .getHeader => .ok (armHeader b k)
  | .getSize => .ok (armSize P port b k)
  | .getData => armData P port b k

/-- `RX_BYTE(b)` (R130): the arm, then the response `[OK, ev]`. -/
def rxByteEffect (P : Params) (port : Nat) (b : Byte) (k : Block) : Except Fault Effect :=
  match rxByteArm P port b k with
  | .error r => .error r
  | .ok a => .ok { block := a.block, out := a.out ++ [.response [StatusCode.ok.toByte, a.ev.toByte]] }

/-- `RX_RESET()` on one instance (R138): the parser registers take their reset values; the buffers and the FIFO stay. -/
def rxResetBlock (k : Block) : Block :=
  { k with ps := .waitForStart, hdr1 := 0x00, size := 0x00, rxIdx := 0 }

/-- `RX_BYTE b` (R130). -/
def execRxByte (b : Byte) (s : State) : Host.Outcome State Fault Refusal :=
  s.onPort fun k => rxByteEffect s.params s.port b k

/-- `RX_RESET` (R138). -/
def execRxReset (s : State) : Host.Outcome State Fault Refusal :=
  s.onPort fun k => .ok ((rxResetBlock k).answer [StatusCode.ok.toByte])

end Sys2Proof.Machine
end

