-- ==== Sys2Proof/Machine/TxFifo.lean ====
section
/-! DEFINITION. The transmit FIFO: `FRAME` (R170), `TX_PUT` (R171) and `TX_SEND` (R172). -/

namespace Sys2Proof.Machine

/-- `FRAME(h, s, p)` (R170, R76). -/
def frame (h size : Byte) (p : List Byte) : List Byte :=
  if size = 0x00 then [Config.startByte, h, 0x00] else [Config.startByte, h, size] ++ cobsEncode p

/-- `TX_PUT(hdr1, size, p)` on one instance (R171): the length check, then the free space (R223), then the whole frame. -/
def txPutEffect (P : Params) (h size : Byte) (p : List Byte) (k : Block) : Except Fault Effect :=
  if size.toNat = 255 then .ok (k.answer [StatusCode.errLen.toByte])
  else if P.txCap - k.txCount < (frame h size p).length then .ok (k.answer [StatusCode.errFull.toByte])
  else
    match bufWriteAll .txBuf P.txCap k.txBuf
        ((ringIndices P.txCap (k.txHead + k.txCount) (frame h size p).length).zip (frame h size p)) with
    | .error r => .error r
    | .ok m =>
      .ok (Block.answer { k with txBuf := m, txCount := k.txCount + (frame h size p).length } [StatusCode.ok.toByte])

/-- `TX_SEND()` on one instance (R172), the transport accepting `accept` bytes. -/
def txSendEffect (P : Params) (accept : Nat) (k : Block) : Except Fault Effect :=
  match bufReadAll .txBuf P.txCap k.txBuf (ringIndices P.txCap k.txHead (min accept k.txCount)) with
  | .error r => .error r
  | .ok bs =>
    .ok
      { block :=
          { k with
            txHead := (k.txHead + min accept k.txCount) % P.txCap
            txCount := k.txCount - min accept k.txCount }
        out := bs.map .tx ++
          [.response
            ((if k.txCount - min accept k.txCount = 0 then StatusCode.ok.toByte else StatusCode.pending.toByte) ::
              u16le (min accept k.txCount))] }

/-- `TX_PUT hdr1, size, p` (R171). -/
def execTxPut (h size : Byte) (p : List Byte) (s : State) : Host.Outcome State Fault Refusal :=
  s.onPort fun k => txPutEffect s.params h size p k

/-- `TX_SEND` (R172): the acceptance is the one the transport offers in this step. -/
def execTxSend (s : State) : Host.Outcome State Fault Refusal :=
  s.onPort fun k => txSendEffect s.params s.accept k

end Sys2Proof.Machine
end

