-- ==== Sys2Proof/Machine/Dispatch.lean ====
section
/-! DEFINITION. One arm per command. -/

namespace Sys2Proof.Machine

def exec (i : Instr) (s : State) : Host.Outcome State Fault Refusal :=
  match i with
  -- the codec
  | .enc n p => Sys2Proof.Machine.execEnc n p s
  | .dec m e => Sys2Proof.Machine.execDec m e s
  -- the port parser
  | .rxByte b => Sys2Proof.Machine.execRxByte b s
  | .rxReset => Sys2Proof.Machine.execRxReset s
  -- the transmit FIFO
  | .txPut h n p => Sys2Proof.Machine.execTxPut h n p s
  | .txSend => Sys2Proof.Machine.execTxSend s
  -- control
  | .status => Sys2Proof.Machine.execStatus s

end Sys2Proof.Machine
end

