-- ==== Sys2Proof/Machine/Fetch.lean ====
section
/-! DEFINITION. What stands at the command and reset ports (R70): the oldest input, its packet decoded (R84). The block
fetches no instructions of its own (R61): the host presents them. -/

namespace Sys2Proof.Machine

/-- The refusal that stands for a byte sequence that is no packet (I8). -/
def refusalOf : DecodeError → Refusal
  | .truncated => .truncatedPacket
  | .overlong => .overlongPacket

/-- A command packet presented to an instance, in the state `s` with the input taken: refused before the first reset (I10),
refused when it is no packet (I8). -/
def fetchCommand (packet : List Byte) (s : State) : Fetched :=
  if s.resetSeen then
    match decodePacket packet with
    | .error e => .refuse (refusalOf e)
    | .ok (.instr i) => .run i s
    | .ok (.illegal op) => .illegal op s
  else .refuse .beforeReset

/-- The oldest input. Reset abandons a command in progress (R250); a command that overlaps another is refused (R253). DESIGN
CHOICE, log 25: reset during a command presented before the first reset is a reset like any other (R250), although the command
itself is refused before it (I10). DESIGN CHOICE, log 27: so is reset during a packet that is no command (I8) or on an instance
that does not exist; neither is looked at. An overlapping command before the first reset is refused as `beforeReset` (log 26). -/
def fetch (s : State) : Fetched :=
  match s.inputs with
  | [] => .idle
  | .command port packet accept :: rest => fetchCommand packet ((s.withInputs rest).select port accept)
  | .reset :: rest => .reset (s.withInputs rest)
  | .resetDuring _ _ :: rest => .reset (s.withInputs rest)
  | .overlap _ _ :: _ => .refuse (if s.resetSeen then .overlappingCommand else .beforeReset)

/-- Present a packet as the next input, to the selected instance, with the acceptance that stands. Reset has been seen. -/
def State.presentPacket (s : State) (packet : List Byte) : State :=
  { s with inputs := .command s.port packet s.accept :: s.inputs, resetSeen := true }

end Sys2Proof.Machine
end

