-- ==== Sys2Proof/Machine/Step.lean ====
section
/-! DEFINITION. One step: one command of one instance, or one reset (R17, R57). -/

namespace Sys2Proof.Machine

/-- One step. With nothing presented the block does nothing (R232, log 8). -/
def step (s : State) : Host.Outcome State Fault Refusal :=
  match fetch s with
  | .idle => .next s
  | .reset t => .next t.resetAll
  | .run i t => exec i t
  | .illegal op t => execIllegal op t
  | .refuse r => .refused r

/-- `s` with a table word's packet presented as the next input (log 16). -/
def State.withFetchWord (s : State) (nbits w : Nat) : State := s.presentPacket (tablePacket nbits w)

end Sys2Proof.Machine
end

