-- ==== Sys2Proof/Machine/Pseudo.lean ====
section
/-! DEFINITION. The host's shorthand: sequences of commands, the pseudo-instructions `RX_FEED`, `PUT_MSG` and `DRAIN` (R87),
and the assembler text of a command (R86). The block has no opcode for any of them. -/

namespace Sys2Proof.Machine

/-- Commands one after the other on the selected instance, stopping at the first that stops. -/
def execAll : List Instr → State → Host.Outcome State Fault Refusal
  | [], s => .next s
  | i :: is, s =>
    match exec i s with
    | .next t => execAll is t
    | .fault r => .fault r
    | .refused r => .refused r

/-- `RX_FEED [b0 ... b(k-1)]` (R87). -/
def rxFeed (bs : List Byte) : List Instr := bs.map .rxByte

/-- One chunk the host reads from the bytes available, at most `FEED_N` of them (R8, R87), and what is left. -/
def rxFeedChunk (P : Params) (available : List Byte) : List Instr × List Byte :=
  (rxFeed (available.take P.feedN), available.drop P.feedN)

/-- The transport offers `accept` from now on. -/
def State.withAccept (s : State) (accept : Nat) : State := { s with accept := accept }

/-- A decoded packet on the selected instance: a command of the table, or an unassigned opcode. -/
def execCommand (c : Command) (s : State) : Host.Outcome State Fault Refusal :=
  match c with
  | .instr i => exec i s
  | .illegal op => execIllegal op s

/-- Commands one after the other, each with the acceptance the transport offers meanwhile (R9). -/
def execOffers : List (Nat × Command) → State → Host.Outcome State Fault Refusal
  | [], s => .next s
  | (accept, c) :: cs, s =>
    match execCommand c (s.withAccept accept) with
    | .next t => execOffers cs t
    | .fault r => .fault r
    | .refused r => .refused r

/-- Chunks fed one after the other, each by an `RX_FEED`, an empty one by no command, and after each chunk the other commands
the host issues before the next (R87, R140). -/
def feedChunks : List (List Byte × List (Nat × Command)) → State → Host.Outcome State Fault Refusal
  | [], s => .next s
  | (chunk, between) :: rest, s =>
    match execAll (rxFeed chunk) s with
    | .next t =>
      match execOffers between t with
      | .next u => feedChunks rest u
      | .fault r => .fault r
      | .refused r => .refused r
    | .fault r => .fault r
    | .refused r => .refused r

/-- `PUT_MSG iface, id, [p...]` (R87). -/
def putMsg (P : Params) (iface id : BitVec 4) (p : List Byte) : Instr :=
  .txPut (packHdr1 P.hdr1Layout iface id) (byteOf p.length) p

/-- The status byte of the latest response of the selected instance. -/
def State.lastStatus (s : State) : Option Byte :=
  match s.ports[s.port]? with
  | none => none
  | some p =>
    match p.out.getLast? with
    | some (.response (st :: _)) => some st
    | _ => none

/-- `DRAIN` (R87): `TX_SEND` until its status is `OK`, against the acceptances the transport offers, one a send. The list may
end first: `DRAIN` "ends only when the transport accepts" (log 21). -/
def drain : List Nat → State → Host.Outcome State Fault Refusal
  | [], s => .next s
  | a :: as, s =>
    match exec .txSend (s.withAccept a) with
    | .next t => if t.lastStatus = some StatusCode.ok.toByte then .next t else drain as t
    | .fault r => .fault r
    | .refused r => .refused r

/-! ### Assembler text (R86) -/

/-- One hexadecimal digit. -/
def hexDigit (n : Nat) : String :=
  (["0", "1", "2", "3", "4", "5", "6", "7", "8", "9", "A", "B", "C", "D", "E", "F"][n]?).getD "?"

/-- A byte in hex without `0x`. -/
def hexByte (b : Byte) : String := hexDigit (b.toNat / 16) ++ hexDigit (b.toNat % 16)

/-- Byte lists, separated by spaces. -/
def hexBytes : List Byte → String
  | [] => ""
  | [b] => hexByte b
  | b :: bs => hexByte b ++ " " ++ hexBytes bs

/-- The text of a command; `accept` is the transport's draw, written as a comment of `TX_SEND`. -/
def asmText (accept : Nat) : Instr → String
  | .enc n p => "ENC " ++ hexByte n ++ ", [" ++ hexBytes p ++ "]"
  | .dec m e => "DEC " ++ hexByte m ++ ", [" ++ hexBytes e ++ "]"
  | .rxByte b => "RX_BYTE " ++ hexByte b
  | .rxReset => "RX_RESET"
  | .txPut h n p => "TX_PUT " ++ hexByte h ++ ", " ++ hexByte n ++ ", [" ++ hexBytes p ++ "]"
  | .txSend => "TX_SEND ; A=" ++ Nat.repr accept
  | .status => "STATUS"

/-- The text with the port prefix of a program that uses more than one instance. -/
def asmTextAt (port accept : Nat) (i : Instr) : String := "P" ++ Nat.repr port ++ ": " ++ asmText accept i

end Sys2Proof.Machine
end

