-- ==== Sys2Proof/Safety.lean ====
section
/-! DEFINITION. What counts as a safe state and a safe run, in the terms the statements use: the invariants of R30, the queue
as whole frames, what has left an instance, and the frames a step queues. -/

namespace Sys2Proof.Machine

/-! ### The invariants of R30 -/

/-- A whole frame built by `FRAME` for a legal message (R170: `s ≤ 254` and `len(p) = s`). -/
def IsFrame (f : List Byte) : Prop :=
  ∃ (h size : Byte) (p : List Byte), size.toNat ≤ 254 ∧ p.length = size.toNat ∧ f = frame h size p

/-- (I3): a suffix of one frame, then zero or more whole frames. -/
def IsFrameStream (q : List Byte) : Prop :=
  ∃ (tail : List Byte) (fs : List (List Byte)),
    q = tail ++ fs.flatten ∧ (∃ f, IsFrame f ∧ tail <:+ f) ∧ ∀ f ∈ fs, IsFrame f

/-- Every index listed is inside a buffer of `cap` bytes. -/
def Memory.inside (cap : Nat) (m : Memory) : Bool := m.all fun c => decide (c.1 < cap)

/-- The invariants of one instance: (I1), (I2), (I3) of R30, the range of `rx_idx` (R24), every byte that will be read has been
written (R37), and the buffers' canonical form inside their capacities. -/
structure Block.Inv (P : Params) (k : Block) : Prop where
  /-- (I1), first half. -/
  head_lt : k.txHead < P.txCap
  /-- (I1), second half. -/
  count_le : k.txCount ≤ P.txCap
  /-- (I2). -/
  getData : k.ps = .getData → 1 ≤ k.size.toNat ∧ k.size.toNat ≤ 254 ∧ k.size.toNat + 1 ≤ P.rxCap ∧ k.rxIdx ≤ k.size.toNat
  /-- (I3), with the bytes of `Q` written. -/
  queue : ∃ q, k.queue P = .ok q ∧ IsFrameStream q
  /-- The bytes received so far are written. -/
  received : k.ps = .getData → ∃ e, bufReadAll .rxBuf P.rxCap k.rxBuf (List.range k.rxIdx) = .ok e
  /-- R24. -/
  rxIdx_le : k.rxIdx ≤ 255
  /-- The canonical form of `rx_buf`, inside its capacity. -/
  rx_wf : Memory.wf k.rxBuf = true ∧ Memory.inside P.rxCap k.rxBuf = true
  /-- The canonical form of `tx_buf`, inside its capacity. -/
  tx_wf : Memory.wf k.txBuf = true ∧ Memory.inside P.txCap k.txBuf = true

/-- The invariant of the machine: legal parameters (R8), `NUM_PORTS` instances (R20), each meeting its own. -/
structure State.Inv (s : State) : Prop where
  params : s.params.wf = true
  ports : s.ports.length = s.params.numPorts
  blocks : ∀ p ∈ s.ports, p.block.Inv s.params

/-! ### What has left an instance -/

/-- The bytes on the transport-tx port, in order. -/
def txBytes : List Output → List Byte
  | [] => []
  | .tx b :: os => b :: txBytes os
  | .response _ :: os => txBytes os
  | .delivery _ :: os => txBytes os

/-- The records on the delivery port, in order. -/
def deliveries : List Output → List DeliveryRecord
  | [] => []
  | .delivery r :: os => r :: deliveries os
  | .response _ :: os => deliveries os
  | .tx _ :: os => deliveries os

/-- The packets on the response port, in order. -/
def responses : List Output → List (List Byte)
  | [] => []
  | .response r :: os => r :: responses os
  | .delivery _ :: os => responses os
  | .tx _ :: os => responses os

/-! ### Runs -/

/-- No input of the list asserts reset. -/
def noReset : List Input → Bool
  | [] => true
  | .command _ _ _ :: is => noReset is
  | .overlap _ _ :: is => noReset is
  | .reset :: _ => false
  | .resetDuring _ _ :: _ => false

/-- The bytes a step queues on instance `p`: the frame of the `TX_PUT` it runs there, when that `TX_PUT` answers `[OK]`. -/
def queuedBy (p : Nat) (s : State) : List Byte :=
  match fetch s with
  | .run (.txPut h size payload) t =>
    if t.port = p then
      match exec (.txPut h size payload) t with
      | .next u => if u.lastStatus = some StatusCode.ok.toByte then frame h size payload else []
      | .fault _ => []
      | .refused _ => []
    else []
  | _ => []

/-- The frames of all successful `TX_PUT`s of instance `p` in a run of `n` steps, joined in order (R58). -/
def queuedFrames (p : Nat) : Nat → State → List Byte
  | 0, _ => []
  | n + 1, s =>
    queuedBy p s ++
      match step s with
      | .next t => queuedFrames p n t
      | .fault _ => []
      | .refused _ => []

/-- A run is safe when no step of it faults. -/
def Safe (s : State) : Prop := ∀ (n : Nat) (r : Fault), Host.Core.run Sys2Proof.core n s ≠ .fault r

end Sys2Proof.Machine
end

