-- ==== Sys2Proof/Certificates/Slice0/Obligations.lean ====
section
/-! DEFINITION. The statements for the provers. A result statement says the whole next state as one record update of the
state before, so it is the completion and the frame of its command at once: what the update does not name is unchanged. In
each, `q` is the instance the command was presented to (R20). -/

open Sys2Proof Sys2Proof.Machine

/-! ### The codec -/

/-- R100: the payload is cut after each zero, the virtual one at the end included; each group of nonzero bytes becomes its
code byte and itself. The three clauses cover every legal payload. -/
def Obligations.CobsEncodeCutsAtZeros : Prop :=
  (∀ p : List Byte, 1 ≤ p.length → p.length ≤ 254 → (0x00 : Byte) ∉ p →
    cobsEncode p = BitVec.ofNat 8 (p.length + 1) :: p) ∧
  (∀ run rest : List Byte, (0x00 : Byte) ∉ run → rest ≠ [] → (run ++ 0x00 :: rest).length ≤ 254 →
    cobsEncode (run ++ 0x00 :: rest) = BitVec.ofNat 8 (run.length + 1) :: run ++ cobsEncode rest) ∧
  (∀ run : List Byte, (0x00 : Byte) ∉ run → run.length + 1 ≤ 254 →
    cobsEncode (run ++ [0x00]) = BitVec.ofNat 8 (run.length + 1) :: run ++ [0x01]) ∧
  cobsEncode [0x11, 0x22, 0x00, 0x33] = [0x03, 0x11, 0x22, 0x02, 0x33]

/-- R101: a zero fails; a code byte past the end fails; the last group gives its data bytes; any other group gives its data
bytes and a zero (the exception for 0xFF "never changes the result when len(e) ≤ 255"). -/
def Obligations.CobsDecodeReadsGroups : Prop :=
  (∀ e : List Byte, 1 ≤ e.length → e.length ≤ 255 → (0x00 : Byte) ∈ e → cobsDecode e = none) ∧
  (∀ (c : Byte) (r : List Byte), r.length + 1 ≤ 255 → (0x00 : Byte) ∉ c :: r →
    (r.length + 1 < c.toNat → cobsDecode (c :: r) = none) ∧
    (r.length + 1 = c.toNat → cobsDecode (c :: r) = some r) ∧
    (c.toNat < r.length + 1 →
      cobsDecode (c :: r) =
        (cobsDecode (r.drop (c.toNat - 1))).map fun out => r.take (c.toNat - 1) ++ [0x00] ++ out)) ∧
  cobsDecode [0x03, 0x11, 0x22, 0x02, 0x33] = some [0x11, 0x22, 0x00, 0x33]

/-- R104: the length law, no delimiter, and the first code byte. -/
def Obligations.CobsEncodeLengthAndDelimiter : Prop :=
  ∀ p : List Byte, 1 ≤ p.length → p.length ≤ 254 →
    (cobsEncode p).length = p.length + 1 ∧
    (0x00 : Byte) ∉ cobsEncode p ∧
    (cobsEncode p).head? = some (BitVec.ofNat 8 (1 + p.findIdx fun b => b == 0x00))

/-- R105: decoding inverts encoding, a decoded buffer is one byte shorter, and each valid encoded buffer is the encoding of
exactly one payload. -/
def Obligations.CobsRoundTripAndCanonical : Prop :=
  (∀ p : List Byte, 1 ≤ p.length → p.length ≤ 254 → cobsDecode (cobsEncode p) = some p) ∧
  (∀ e p : List Byte, 1 ≤ e.length → e.length ≤ 255 → cobsDecode e = some p → p.length = e.length - 1) ∧
  (∀ e p : List Byte, 2 ≤ e.length → e.length ≤ 255 → cobsDecode e = some p → cobsEncode p = e)

/-- R102: the response of ENC for every length operand; no state written. -/
def Obligations.EncAnswersEncodedPayload : Prop :=
  ∀ (s : State) (q : Port) (n : Byte) (p : List Byte), s.ports[s.port]? = some q → p.length = n.toNat →
    exec (.enc n p) s = .next { s with ports := s.ports.set s.port { q with
      out := q.out ++ [.response (if n = 0x00 ∨ n = 0xFF then [0x01, 0x00] else [0x00, n + 1] ++ cobsEncode p)] } }

/-- R103: the response of DEC for every length operand and every buffer; no state written. The decoded length is `m - 1`. -/
def Obligations.DecAnswersDecodedPayload : Prop :=
  ∀ (s : State) (q : Port) (m : Byte) (e : List Byte), s.ports[s.port]? = some q → e.length = m.toNat →
    exec (.dec m e) s = .next { s with ports := s.ports.set s.port { q with
      out := q.out ++ [.response (
        if m = 0x00 then [0x01, 0x00]
        else match cobsDecode e with
          | none => [0x02, 0x00]
          | some r => [0x00, m - 1] ++ r)] } }

/-- R56, R107: ENC, DEC and STATUS change no state, and issued twice each gives the same response. -/
def Obligations.EncDecStatusIdempotent : Prop :=
  ∀ (s : State) (q : Port) (i : Instr), s.ports[s.port]? = some q →
    (i = .status ∨ (∃ n p, i = .enc n p) ∨ ∃ m e, i = .dec m e) →
    ∃ (r : List Byte) (t : State),
      exec i s = .next t ∧
      t = { s with ports := s.ports.set s.port { q with out := q.out ++ [.response r] } } ∧
      exec i t = .next { s with ports := s.ports.set s.port { q with out := q.out ++ [.response r, .response r] } }

/-! ### The port parser -/

/-- R131: in WAIT_FOR_START only the start byte does anything. -/
def Obligations.RxByteWaitForStart : Prop :=
  ∀ (s : State) (q : Port) (b : Byte), s.ports[s.port]? = some q → q.block.ps = .waitForStart →
    exec (.rxByte b) s = .next { s with ports := s.ports.set s.port {
      block := if b = 0x73 then { q.block with ps := .getHeader } else q.block
      out := q.out ++ [.response [0x00, 0x00]] } }

/-- R132: in GET_HEADER any byte is taken as header byte 1. -/
def Obligations.RxByteGetHeader : Prop :=
  ∀ (s : State) (q : Port) (b : Byte), s.ports[s.port]? = some q → q.block.ps = .getHeader →
    exec (.rxByte b) s = .next { s with ports := s.ports.set s.port {
      block := { q.block with hdr1 := b, ps := .getSize }
      out := q.out ++ [.response [0x00, 0x00]] } }

/-- R133: in GET_SIZE the byte is kept, then dropped, delivered empty, or starts the data phase. -/
def Obligations.RxByteGetSize : Prop :=
  ∀ (s : State) (q : Port) (b : Byte), s.ports[s.port]? = some q → q.block.ps = .getSize → 1 ≤ s.params.rxCap →
    ((b = 0xFF ∨ s.params.rxCap < b.toNat + 1) →
      exec (.rxByte b) s = .next { s with ports := s.ports.set s.port {
        block := { q.block with size := b, ps := .waitForStart }
        out := q.out ++ [.response [0x00, 0x02]] } }) ∧
    (b = 0x00 →
      exec (.rxByte b) s = .next { s with ports := s.ports.set s.port {
        block := { q.block with size := 0x00, ps := .waitForStart }
        out := q.out ++
          [.delivery
            { port := s.port, hdr1 := q.block.hdr1, iface := ifaceOf s.params.hdr1Layout q.block.hdr1,
              id := idOf s.params.hdr1Layout q.block.hdr1, size := 0x00, payload := [] },
           .response [0x00, 0x01]] } }) ∧
    (b ≠ 0x00 → b ≠ 0xFF → b.toNat + 1 ≤ s.params.rxCap →
      exec (.rxByte b) s = .next { s with ports := s.ports.set s.port {
        block := { q.block with size := b, rxIdx := 0, ps := .getData }
        out := q.out ++ [.response [0x00, 0x00]] } })

/-- R134, R135: in GET_DATA every byte is stored at `rx_idx`, whatever it is, and nothing else of `rx_buf` changes. A byte that
is not the last does no more; after the last the frame's bytes are decoded, and the message is delivered or dropped. A decoded
message has `size` bytes. -/
def Obligations.RxByteGetData : Prop :=
  (∀ (s : State) (q : Port) (b : Byte), s.ports[s.port]? = some q → q.block.ps = .getData →
    q.block.rxIdx < s.params.rxCap → q.block.rxIdx ≠ q.block.size.toNat →
    ∃ m : Memory,
      exec (.rxByte b) s = .next { s with ports := s.ports.set s.port {
        block := { q.block with rxBuf := m, rxIdx := q.block.rxIdx + 1 }
        out := q.out ++ [.response [0x00, 0x00]] } } ∧
      ∀ i, Memory.read m i = if i = q.block.rxIdx then some b else Memory.read q.block.rxBuf i) ∧
  (∀ (s : State) (q : Port) (b : Byte) (e : List Byte), s.ports[s.port]? = some q → q.block.ps = .getData →
    q.block.size.toNat ≤ 254 → q.block.size.toNat + 1 ≤ s.params.rxCap → q.block.rxIdx = q.block.size.toNat →
    e.length = q.block.size.toNat → (∀ i < e.length, Memory.read q.block.rxBuf i = e[i]?) →
    (∃ m : Memory,
      exec (.rxByte b) s = .next { s with ports := s.ports.set s.port {
        block := { q.block with rxBuf := m, rxIdx := q.block.size.toNat + 1, ps := .waitForStart }
        out := q.out ++
          match cobsDecode (e ++ [b]) with
          | none => [.response [0x00, 0x03]]
          | some r =>
            [.delivery
              { port := s.port, hdr1 := q.block.hdr1, iface := ifaceOf s.params.hdr1Layout q.block.hdr1,
                id := idOf s.params.hdr1Layout q.block.hdr1, size := q.block.size, payload := r },
             .response [0x00, 0x01]] } } ∧
      ∀ i, Memory.read m i = if i = q.block.rxIdx then some b else Memory.read q.block.rxBuf i) ∧
    ∀ r, cobsDecode (e ++ [b]) = some r → r.length = q.block.size.toNat)

/-- R130, R59, R81: from every state that meets the invariant RX_BYTE answers `[OK, ev]`, makes at most one delivery, just
when the event says so, and leaves the FIFO alone. -/
def Obligations.RxByteAlwaysAnswersOk : Prop :=
  ∀ (s : State) (q : Port) (b : Byte), s.Inv → s.ports[s.port]? = some q →
    ∃ (k : Block) (ev : Byte) (ds : List Output),
      exec (.rxByte b) s = .next { s with ports := s.ports.set s.port {
        block := k, out := q.out ++ ds ++ [.response [0x00, ev]] } } ∧
      ev.toNat ≤ 3 ∧
      ((ev ≠ 0x01 ∧ ds = []) ∨ (ev = 0x01 ∧ ∃ r, ds = [.delivery r] ∧ r.port = s.port)) ∧
      k.txBuf = q.block.txBuf ∧ k.txHead = q.block.txHead ∧ k.txCount = q.block.txCount

/-- R137: inside a frame the start byte is data in all three states, and in GET_DATA the byte count alone ends the frame,
whatever the byte. -/
def Obligations.StartByteInsideFrameIsData : Prop :=
  ∀ (s : State) (q : Port), s.Inv → s.ports[s.port]? = some q →
    (q.block.ps = .getHeader → ∃ k out,
      exec (.rxByte 0x73) s = .next { s with ports := s.ports.set s.port { block := k, out := out } } ∧
      k.hdr1 = 0x73 ∧ k.ps = .getSize) ∧
    (q.block.ps = .getSize → ∃ k out,
      exec (.rxByte 0x73) s = .next { s with ports := s.ports.set s.port { block := k, out := out } } ∧
      k.size = 0x73 ∧ (k.ps = .getData ↔ 0x74 ≤ s.params.rxCap)) ∧
    (q.block.ps = .getData → ∀ b : Byte, ∃ k out,
      exec (.rxByte b) s = .next { s with ports := s.ports.set s.port { block := k, out := out } } ∧
      Memory.read k.rxBuf q.block.rxIdx = some b ∧
      (k.ps = .getData ↔ q.block.rxIdx ≠ q.block.size.toNat))

/-- R138: RX_RESET gives the parser registers their reset values and leaves the buffers and the FIFO. -/
def Obligations.RxResetResetsParser : Prop :=
  ∀ (s : State) (q : Port), s.ports[s.port]? = some q →
    exec .rxReset s = .next { s with ports := s.ports.set s.port {
      block := { q.block with ps := .waitForStart, hdr1 := 0x00, size := 0x00, rxIdx := 0 }
      out := q.out ++ [.response [0x00]] } }

/-- R141: only RX_BYTE and RX_RESET on that instance, and reset, change `ps`. -/
def Obligations.OnlyParserCommandsChangePs : Prop :=
  ∀ (s t : State) (n : Nat) (q q' : Port), step s = .next t →
    s.ports[n]? = some q → t.ports[n]? = some q' → q'.block.ps ≠ q.block.ps →
    (∃ u, fetch s = .reset u) ∨
    ∃ i u, fetch s = .run i u ∧ u.port = n ∧ (i = .rxReset ∨ ∃ b, i = .rxByte b)

/-- R142: from any parser state at most 257 bytes, whatever they are, bring the parser back to WAIT_FOR_START; inside a frame they
end it in exactly one of a delivery, EV_DROP_SIZE and EV_DROP_DECODE; and in WAIT_FOR_START the first 0x73 starts the next
frame, with no delivery before it. -/
def Obligations.ParserRecoversWithin257Bytes : Prop :=
  (∀ (s : State) (q : Port) (bs : List Byte), s.Inv → s.ports[s.port]? = some q → bs.length = 257 →
    ∃ (k : Nat) (t : State) (q' : Port), k ≤ 257 ∧ execAll (rxFeed (bs.take k)) s = .next t ∧
      t.ports[s.port]? = some q' ∧ q'.block.ps = .waitForStart ∧
      (q.block.ps ≠ .waitForStart → ∃ (ev : Byte) (ds : List Output), 1 ≤ k ∧
        q'.out = q.out ++ List.replicate (k - 1) (.response [0x00, 0x00]) ++ ds ++ [.response [0x00, ev]] ∧
        ((ev = 0x01 ∧ ∃ r, ds = [.delivery r]) ∨ ((ev = 0x02 ∨ ev = 0x03) ∧ ds = [])))) ∧
  (∀ (s : State) (q : Port) (gap : List Byte), s.Inv → s.ports[s.port]? = some q → q.block.ps = .waitForStart →
    (0x73 : Byte) ∉ gap →
    ∃ (t : State) (q' : Port), execAll (rxFeed (gap ++ [0x73])) s = .next t ∧ t.ports[s.port]? = some q' ∧
      q'.block.ps = .getHeader ∧ deliveries q'.out = deliveries q.out)

/-- R140: whatever the chunks, empty ones among them, and whatever commands other than RX_BYTE and RX_RESET stand after each
(unassigned opcodes included, with any offer of the transport), every command answers next, and the parser registers, `rx_buf`
and the deliveries are those of the bytes alone, fed one by one. -/
def Obligations.ChunkingDoesNotMatter : Prop :=
  ∀ (s : State) (q : Port) (parts : List (List Byte × List (Nat × Command))), s.Inv → s.ports[s.port]? = some q →
    (∀ x ∈ parts, ∀ c ∈ x.2, c.2.wf = true ∧ c.2 ≠ .instr .rxReset ∧ ∀ b, c.2 ≠ .instr (.rxByte b)) →
    ∃ (t u : State) (qt qu : Port),
      feedChunks parts s = .next t ∧ execAll (rxFeed (parts.flatMap Prod.fst)) s = .next u ∧
      t.ports[s.port]? = some qt ∧ u.ports[s.port]? = some qu ∧
      qt.block.ps = qu.block.ps ∧ qt.block.hdr1 = qu.block.hdr1 ∧ qt.block.size = qu.block.size ∧
      qt.block.rxIdx = qu.block.rxIdx ∧ qt.block.rxBuf = qu.block.rxBuf ∧
      deliveries qt.out = deliveries qu.out

/-- R143: a parser that has `e` of `size + 1` encoded bytes takes the next bytes as the rest, whatever they are, completes
with a delivery or a drop, and goes on from what follows. -/
def Obligations.DataPhaseTakesNextBytesAsItsOwn : Prop :=
  ∀ (s : State) (q : Port) (e ys : List Byte), s.Inv → s.ports[s.port]? = some q → q.block.ps = .getData →
    e.length = q.block.rxIdx → (∀ i < e.length, Memory.read q.block.rxBuf i = e[i]?) →
    e.length + ys.length = q.block.size.toNat + 1 →
    ∃ m : Memory, ∃ u : State,
      u = { s with ports := s.ports.set s.port {
        block := { q.block with rxBuf := m, rxIdx := q.block.size.toNat + 1, ps := .waitForStart }
        out := q.out ++ List.replicate (ys.length - 1) (.response [0x00, 0x00]) ++
          match cobsDecode (e ++ ys) with
          | none => [.response [0x00, 0x03]]
          | some r =>
            [.delivery
              { port := s.port, hdr1 := q.block.hdr1, iface := ifaceOf s.params.hdr1Layout q.block.hdr1,
                id := idOf s.params.hdr1Layout q.block.hdr1, size := q.block.size, payload := r },
             .response [0x00, 0x01]] } } ∧
      ∀ zs : List Byte, execAll (rxFeed (ys ++ zs)) s = execAll (rxFeed zs) u

/-- R76, R131 to R136: a parser in WAIT_FOR_START that is fed a whole frame delivers its message, exactly once, at its last
byte, and is back in WAIT_FOR_START. -/
def Obligations.WholeFrameIsDelivered : Prop :=
  ∀ (s : State) (q : Port) (h size : Byte) (p : List Byte), s.Inv → s.ports[s.port]? = some q →
    q.block.ps = .waitForStart → size.toNat ≤ 254 → p.length = size.toNat → size.toNat + 1 ≤ s.params.rxCap →
    ∃ (m : Memory) (idx : Nat),
      execAll (rxFeed (frame h size p)) s = .next { s with ports := s.ports.set s.port {
        block := { q.block with hdr1 := h, size := size, rxBuf := m, rxIdx := idx, ps := .waitForStart }
        out := q.out ++ List.replicate ((frame h size p).length - 1) (.response [0x00, 0x00]) ++
          [.delivery
            { port := s.port, hdr1 := h, iface := ifaceOf s.params.hdr1Layout h, id := idOf s.params.hdr1Layout h,
              size := size, payload := p },
           .response [0x00, 0x01]] } }

/-- R144: when a frame cut short, with a legal size, is followed by a valid frame, exactly the valid one is delivered (a) after an
RX_RESET in between, and (b) when the cut frame completes with bytes that fail to decode, before the valid frame starts,
and no start byte stands in between. -/
def Obligations.ResynchronizationCases : Prop :=
  ∀ (s : State) (q : Port) (h₁ size₁ : Byte) (part : List Byte) (h size : Byte) (p : List Byte), s.Inv →
    s.ports[s.port]? = some q → q.block.ps = .waitForStart →
    1 ≤ size₁.toNat → size₁.toNat ≤ 254 → size₁.toNat + 1 ≤ s.params.rxCap → part.length < size₁.toNat + 1 →
    size.toNat ≤ 254 → p.length = size.toNat → size.toNat + 1 ≤ s.params.rxCap →
    (∃ (t : State) (q' : Port),
      execAll (rxFeed ([0x73, h₁, size₁] ++ part) ++ [.rxReset] ++ rxFeed (frame h size p)) s = .next t ∧
      t.ports[s.port]? = some q' ∧
      deliveries q'.out = deliveries q.out ++
        [{ port := s.port, hdr1 := h, iface := ifaceOf s.params.hdr1Layout h, id := idOf s.params.hdr1Layout h,
           size := size, payload := p }]) ∧
    (∀ rest gap : List Byte, part.length + rest.length = size₁.toNat + 1 → cobsDecode (part ++ rest) = none →
      (0x73 : Byte) ∉ gap →
      ∃ (t : State) (q' : Port),
        execAll (rxFeed ([0x73, h₁, size₁] ++ part ++ rest ++ gap ++ frame h size p)) s = .next t ∧
        t.ports[s.port]? = some q' ∧
        deliveries q'.out = deliveries q.out ++
          [{ port := s.port, hdr1 := h, iface := ifaceOf s.params.hdr1Layout h, id := idOf s.params.hdr1Layout h,
             size := size, payload := p }])

/-! ### The transmit FIFO -/

/-- R170, R79: the bytes of a frame and how many they are. -/
def Obligations.FrameBytesAndLength : Prop :=
  (∀ h : Byte, frame h 0x00 [] = [0x73, h, 0x00]) ∧
  (∀ (h size : Byte) (p : List Byte), 1 ≤ size.toNat → size.toNat ≤ 254 → p.length = size.toNat →
    frame h size p = [0x73, h, size] ++ cobsEncode p) ∧
  (∀ (h size : Byte) (p : List Byte), size.toNat ≤ 254 → p.length = size.toNat →
    (frame h size p).length = frameLen size.toNat) ∧
  frameLen 0 = 3 ∧
  (∀ n, 1 ≤ n → n ≤ 254 → frameLen n = n + 4) ∧
  frame 0x12 0x04 [0x11, 0x22, 0x00, 0x33] = [0x73, 0x12, 0x04, 0x03, 0x11, 0x22, 0x02, 0x33]

/-- R171: the three outcomes of TX_PUT. The bytes written are those of the frame, at the ring places from the tail on, and no
other byte of `tx_buf` changes. -/
def Obligations.TxPutResult : Prop :=
  ∀ (s : State) (q : Port) (h size : Byte) (p : List Byte), s.ports[s.port]? = some q → p.length = size.toNat →
    (size = 0xFF →
      exec (.txPut h size p) s = .next { s with ports := s.ports.set s.port { q with
        out := q.out ++ [.response [0x01]] } }) ∧
    (size ≠ 0xFF → s.params.txCap - q.block.txCount < frameLen size.toNat →
      exec (.txPut h size p) s = .next { s with ports := s.ports.set s.port { q with
        out := q.out ++ [.response [0x03]] } }) ∧
    (size ≠ 0xFF → frameLen size.toNat ≤ s.params.txCap - q.block.txCount →
      ∃ m : Memory,
        exec (.txPut h size p) s = .next { s with ports := s.ports.set s.port {
          block := { q.block with txBuf := m, txCount := q.block.txCount + frameLen size.toNat }
          out := q.out ++ [.response [0x00]] } } ∧
        (∀ j < frameLen size.toNat,
          Memory.read m ((q.block.txHead + q.block.txCount + j) % s.params.txCap) = (frame h size p)[j]?) ∧
        ∀ i, (∀ j < frameLen size.toNat, i ≠ (q.block.txHead + q.block.txCount + j) % s.params.txCap) →
          Memory.read m i = Memory.read q.block.txBuf i)

/-- R173: TX_PUT adds its whole frame to the queue or nothing, and says which. -/
def Obligations.TxPutQueuesWholeFrameOrNothing : Prop :=
  ∀ (s : State) (q : Port) (h size : Byte) (p Q : List Byte), s.Inv → s.ports[s.port]? = some q →
    p.length = size.toNat → q.block.queue s.params = .ok Q →
    ∃ (k : Block) (st : Byte),
      exec (.txPut h size p) s = .next { s with ports := s.ports.set s.port {
        block := k, out := q.out ++ [.response [st]] } } ∧
      ((st = 0x00 ∧ size ≠ 0xFF ∧ k.queue s.params = .ok (Q ++ frame h size p) ∧
          k.txCount = q.block.txCount + frameLen size.toNat ∧ k.txHead = q.block.txHead) ∨
        (st ≠ 0x00 ∧ k = q.block))

/-- R172, R53: TX_SEND emits the first `min A tx_count` bytes of the queue, oldest first, and answers with their number and
whether bytes remain; `tx_buf` keeps its bytes. -/
def Obligations.TxSendEmitsOldestBytes : Prop :=
  ∀ (s : State) (q : Port) (Q : List Byte), s.ports[s.port]? = some q → q.block.queue s.params = .ok Q →
    exec .txSend s = .next { s with ports := s.ports.set s.port {
      block := { q.block with
        txHead := (q.block.txHead + min s.accept q.block.txCount) % s.params.txCap
        txCount := q.block.txCount - min s.accept q.block.txCount }
      out := q.out ++ (Q.take (min s.accept q.block.txCount)).map .tx ++
        [.response
          [if q.block.txCount - min s.accept q.block.txCount = 0 then 0x00 else 0x04,
           BitVec.ofNat 8 (min s.accept q.block.txCount),
           BitVec.ofNat 8 (min s.accept q.block.txCount / 256)]] } }

/-- R55, R172: what TX_SEND does not emit stays at the head of the queue, in order. -/
def Obligations.TxSendLeavesRestQueued : Prop :=
  ∀ (s t : State) (q q' : Port) (Q : List Byte), s.ports[s.port]? = some q → q.block.queue s.params = .ok Q →
    exec .txSend s = .next t → t.ports[s.port]? = some q' →
    q'.block.queue t.params = .ok (Q.drop (min s.accept q.block.txCount))

/-- R58: in any run without reset the bytes emitted and the bytes still queued are together the bytes emitted and queued
before and the frames of the successful TX_PUTs, in order; from reset the bytes emitted are a prefix of those frames. -/
def Obligations.TransmitOrderIsQueueOrder : Prop :=
  (∀ (n p : Nat) (s t : State) (q q' : Port) (Q Q' : List Byte), s.Inv → noReset s.inputs = true →
    Host.Core.run Sys2Proof.core n s = .next t → s.ports[p]? = some q → t.ports[p]? = some q' →
    q.block.queue s.params = .ok Q → q'.block.queue t.params = .ok Q' →
    txBytes q'.out ++ Q' = txBytes q.out ++ Q ++ queuedFrames p n s) ∧
  (∀ (n p : Nat) (P : Params) (is : List Input) (t : State) (q' : Port), P.wf = true → noReset is = true →
    Host.Core.run Sys2Proof.core n ((State.resetWith P).withInputs is) = .next t → t.ports[p]? = some q' →
    txBytes q'.out <+: queuedFrames p n ((State.resetWith P).withInputs is))

/-- R175: a message whose frame is longer than the whole buffer is refused from every state; every legal message fits an empty
FIFO exactly when `TX_CAP ≥ 258`; with `TX_CAP = 16` sizes 0 to 12 fit and 13 to 254 do not. -/
def Obligations.FifoCapacityCorner : Prop :=
  (∀ (s : State) (q : Port) (h size : Byte) (p : List Byte), s.ports[s.port]? = some q → size.toNat ≤ 254 →
    p.length = size.toNat → s.params.txCap < frameLen size.toNat →
    ∃ t, exec (.txPut h size p) s = .next t ∧ t.lastStatus = some 0x03) ∧
  (∀ (s : State) (q : Port), s.ports[s.port]? = some q → q.block.txCount = 0 →
    ((∀ (h size : Byte) (p : List Byte), size.toNat ≤ 254 → p.length = size.toNat →
      ∃ t, exec (.txPut h size p) s = .next t ∧ t.lastStatus = some 0x00) ↔ 258 ≤ s.params.txCap)) ∧
  (∀ (s : State) (q : Port) (h size : Byte) (p : List Byte), s.ports[s.port]? = some q → q.block.txCount = 0 →
    s.params.txCap = 16 → size.toNat ≤ 254 → p.length = size.toNat →
    ∃ t, exec (.txPut h size p) s = .next t ∧
      t.lastStatus = some (if size.toNat ≤ 12 then 0x00 else 0x03))

/-- R176: of TX_PUTs of frame length `L` from an empty queue with no TX_SEND between them the `j`-th succeeds exactly when
`j · L ≤ TX_CAP`, and the queue holds exactly the frames that fit. -/
def Obligations.OverflowEventuallyRefuses : Prop :=
  ∀ (s : State) (q : Port) (L : Nat) (msgs : List (Byte × Byte × List Byte)) (m : Byte × Byte × List Byte), s.Inv →
    s.ports[s.port]? = some q → q.block.txCount = 0 → L ≤ s.params.txCap →
    (∀ x ∈ msgs ++ [m], x.2.1.toNat ≤ 254 ∧ x.2.2.length = x.2.1.toNat ∧ frameLen x.2.1.toNat = L) →
    ∃ (t u : State) (q' : Port),
      execAll (msgs.map fun x => .txPut x.1 x.2.1 x.2.2) s = .next t ∧
      exec (.txPut m.1 m.2.1 m.2.2) t = .next u ∧
      (u.lastStatus = some 0x00 ↔ (msgs.length + 1) * L ≤ s.params.txCap) ∧
      u.ports[s.port]? = some q' ∧
      q'.block.queue u.params =
        .ok (((msgs ++ [m]).take (s.params.txCap / L)).map fun x => frame x.1 x.2.1 x.2.2).flatten

/-- R87, R258: DRAIN ends with the queue empty and every queued byte emitted in order, when each send is accepted at least one
byte and there are as many sends as queued bytes. -/
def Obligations.DrainEmptiesQueue : Prop :=
  ∀ (s : State) (q : Port) (Q : List Byte) (as : List Nat), s.ports[s.port]? = some q →
    q.block.queue s.params = .ok Q → (∀ a ∈ as, 1 ≤ a) → q.block.txCount ≤ as.length →
    ∃ (t : State) (q' : Port), drain as s = .next t ∧ t.ports[s.port]? = some q' ∧ q'.block.txCount = 0 ∧
      txBytes q'.out = txBytes q.out ++ Q ∧ deliveries q'.out = deliveries q.out

/-- R77, R87, R171, R172, R131 to R136: a message put on instance `a`, drained, and fed byte by byte to instance `b` is delivered there
with the same interface, identifier and payload, exactly once. -/
def Obligations.LoopbackDeliversMessage : Prop :=
  ∀ (s : State) (a b : Nat) (qa qb : Port) (iface id : BitVec 4) (p : List Byte) (as : List Nat), s.Inv →
    s.ports[a]? = some qa → s.ports[b]? = some qb → qa.block.txCount = 0 → qb.block.ps = .waitForStart →
    p.length ≤ 254 → frameLen p.length ≤ s.params.txCap → p.length + 1 ≤ s.params.rxCap →
    (∀ x ∈ as, 1 ≤ x) → frameLen p.length ≤ as.length →
    ∃ (t u v : State) (qu qv : Port) (f : List Byte),
      exec (putMsg s.params iface id p) (s.select a 0) = .next t ∧
      drain as t = .next u ∧ u.ports[a]? = some qu ∧ txBytes qu.out = txBytes qa.out ++ f ∧
      execAll (rxFeed f) (u.select b 0) = .next v ∧ v.ports[b]? = some qv ∧
      deliveries qv.out = deliveries qb.out ++
        [{ port := b, hdr1 := packHdr1 s.params.hdr1Layout iface id, iface := iface, id := id,
           size := BitVec.ofNat 8 p.length, payload := p }]

/-! ### Control -/

/-- R200, R33: STATUS answers the register view and writes nothing. -/
def Obligations.StatusAnswersRegisterView : Prop :=
  ∀ (s : State) (q : Port), s.ports[s.port]? = some q →
    exec .status s = .next { s with ports := s.ports.set s.port { q with
      out := q.out ++ [.response
        [0x00,
         match q.block.ps with
         | .waitForStart => 0x00
         | .getHeader => 0x01
         | .getSize => 0x02
         | .getData => 0x03,
         q.block.hdr1, q.block.size, BitVec.ofNat 8 q.block.rxIdx,
         BitVec.ofNat 8 q.block.txCount, BitVec.ofNat 8 (q.block.txCount / 256),
         BitVec.ofNat 8 (s.params.txCap - q.block.txCount),
         BitVec.ofNat 8 ((s.params.txCap - q.block.txCount) / 256)]] } }

/-- R201, R75: an unassigned opcode is a packet of 1 byte, changes no state and answers `[ERR_ILLEGAL]`; 249 opcodes are
unassigned. -/
def Obligations.UnassignedOpcodeAnswersIllegal : Prop :=
  (∀ (s : State) (q : Port) (n a : Nat) (op : Byte) (rest : List Input),
    op ∉ ([0x01, 0x02, 0x10, 0x11, 0x20, 0x21, 0x30] : List Byte) → s.resetSeen = true →
    s.inputs = .command n [op] a :: rest → s.ports[n]? = some q →
    step s = .next { s with
      inputs := rest
      port := n
      accept := a
      ports := s.ports.set n { q with out := q.out ++ [.response [0x05]] } }) ∧
  ((List.range 256).filter fun n =>
    decide ((BitVec.ofNat 8 n : Byte) ∉ ([0x01, 0x02, 0x10, 0x11, 0x20, 0x21, 0x30] : List Byte))).length = 249

/-! ### Encoding -/

/-- R72, R84: decoding the packet of a well-formed command, whatever follows it, gives the command back. -/
def Obligations.DecodeInvertsEncode : Prop :=
  ∀ (i : Instr) (rest : List Byte), i.wf = true → decode (encode i ++ rest) = .ok (.instr i, rest)

/-- R84, R75: what decodes has one packet: the bytes are its encoding and what follows, and its length is the one R84 reads from
the opcode and the length operand. -/
def Obligations.PacketBytesAreDetermined : Prop :=
  ∀ (bs rest : List Byte) (c : Command), decode bs = .ok (c, rest) →
    bs = c.encode ++ rest ∧ c.wf = true ∧ packetLength bs = some c.encode.length

/-- R72, R86, R75: words of every format, written out from the table of R72, with what they decode to. -/
def Obligations.TablePacketsDecode : Prop :=
  decodePacket [0x01, 0x04, 0x11, 0x22, 0x00, 0x33] = .ok (.instr (.enc 0x04 [0x11, 0x22, 0x00, 0x33])) ∧
  decodePacket [0x02, 0x02, 0x01, 0x01] = .ok (.instr (.dec 0x02 [0x01, 0x01])) ∧
  decodePacket [0x10, 0x73] = .ok (.instr (.rxByte 0x73)) ∧
  decodePacket [0x11] = .ok (.instr .rxReset) ∧
  decodePacket [0x20, 0x12, 0x02, 0xAA, 0xBB] = .ok (.instr (.txPut 0x12 0x02 [0xAA, 0xBB])) ∧
  decodePacket [0x21] = .ok (.instr .txSend) ∧
  decodePacket [0x30] = .ok (.instr .status) ∧
  decodePacket [0x7F] = .ok (.illegal 0x7F)

/-- I8, R84: a packet of the length R84 reads is a command; a shorter or longer one is refused by name. -/
def Obligations.PacketsOfWrongLengthAreRefused : Prop :=
  ∀ (s : State) (n a : Nat) (packet : List Byte) (rest : List Input), s.resetSeen = true →
    s.inputs = .command n packet a :: rest →
    (packetLength packet = none → step s = .refused .truncatedPacket) ∧
    (∀ L, packetLength packet = some L → packet.length < L → step s = .refused .truncatedPacket) ∧
    (∀ L, packetLength packet = some L → L < packet.length → step s = .refused .overlongPacket) ∧
    (packetLength packet = some packet.length → s.Inv → n < s.params.numPorts → ∃ t, step s = .next t)

/-! ### The machine -/

/-- R57, R70: a step whose input is a packet that decodes to a command is that command's `exec`, in the state with the input
taken, the instance selected and its transport's offer in place. -/
def Obligations.StepRunsDecodedCommand : Prop :=
  (∀ (s : State) (n a : Nat) (packet : List Byte) (rest : List Input) (i : Instr), s.resetSeen = true →
    s.inputs = .command n packet a :: rest → decodePacket packet = .ok (.instr i) →
    step s = exec i { s with inputs := rest, port := n, accept := a }) ∧
  (∀ (s : State) (n a : Nat) (rest : List Input) (i : Instr), s.resetSeen = true → i.wf = true →
    s.inputs = .command n (encode i) a :: rest →
    step s = exec i { s with inputs := rest, port := n, accept := a })

/-- R226: every command is legal at any time: from every state that meets the invariant, each well-formed command of each of the seven
constructors answers a next state. -/
def Obligations.EveryCommandCompletes : Prop :=
  ∀ (s : State), s.Inv → s.port < s.params.numPorts →
    (∀ n p, p.length = n.toNat → ∃ t, exec (.enc n p) s = .next t) ∧
    (∀ m e, e.length = m.toNat → ∃ t, exec (.dec m e) s = .next t) ∧
    (∀ b, ∃ t, exec (.rxByte b) s = .next t) ∧
    (∃ t, exec .rxReset s = .next t) ∧
    (∀ h size p, p.length = size.toNat → ∃ t, exec (.txPut h size p) s = .next t) ∧
    (∃ t, exec .txSend s = .next t) ∧
    (∃ t, exec .status s = .next t)

/-- R36, R250: reset, between commands or during one, gives every instance the register values of R36 and emits nothing, and the
command in progress returns no response. What the buffers hold is unspecified and not claimed. That an abandoned command has
emitted nothing at all, no transport byte and no delivery (`q'.out = q.out` for `resetDuring`), is the MODEL's choice, log 13;
that the record of earlier outputs is kept is log 7; that reset does the same before the first reset is log 25, and during a packet that is no command or on no instance, log 27. -/
def Obligations.ResetGivesResetValues : Prop :=
  ∀ (s : State) (rest : List Input),
    (s.inputs = .reset :: rest ∨ ∃ n packet, s.inputs = .resetDuring n packet :: rest) →
    ∃ t, step s = .next t ∧ t.inputs = rest ∧ t.resetSeen = true ∧ t.params = s.params ∧
      t.ports.length = s.ports.length ∧
      ∀ (n : Nat) (q : Port), s.ports[n]? = some q →
        ∃ q', t.ports[n]? = some q' ∧ q'.out = q.out ∧ q'.block.ps = .waitForStart ∧ q'.block.hdr1 = 0x00 ∧
          q'.block.size = 0x00 ∧ q'.block.rxIdx = 0 ∧ q'.block.txHead = 0 ∧ q'.block.txCount = 0

/-- R30, R36: the state after reset meets the invariant, for every legal value of the parameters. -/
def Obligations.ResetMeetsInvariant : Prop :=
  ∀ (P : Params) (is : List Input), P.wf = true → ((State.resetWith P).withInputs is).Inv

/-- R30: every step keeps the invariant: (I1), (I2), (I3) of every instance, the written bytes, and the buffers' canonical form. -/
def Obligations.EveryStepKeepsInvariant : Prop :=
  ∀ (s t : State), s.Inv → step s = .next t → t.Inv

/-- R37, R12: from a state that meets the invariant no step of any run faults: no byte is read that was not written, no index is
outside its buffer. -/
def Obligations.NoRunEverFaults : Prop :=
  ∀ (s : State), s.Inv → Safe s

/-- R20: a command changes the instance it was presented to alone, and what it does there depends on that instance alone (and on the
parameters and the transport's offer). -/
def Obligations.InstancesAreIndependent : Prop :=
  ∀ (i : Instr) (s t : State), exec i s = .next t →
    (∀ n, n ≠ s.port → t.ports[n]? = s.ports[n]?) ∧
    (∀ s₂ : State, s₂.params = s.params → s₂.port = s.port → s₂.accept = s.accept →
      s₂.ports[s.port]? = s.ports[s.port]? →
      ∃ t₂, exec i s₂ = .next t₂ ∧ t₂.ports[s.port]? = t.ports[s.port]?)

/-- R57: commands to different instances give the same results in either order. -/
def Obligations.InterleavingDoesNotMatter : Prop :=
  ∀ (s t : State) (n m a b : Nat) (p₁ p₂ : List Byte) (rest : List Input), n ≠ m →
    s.inputs = .command n p₁ a :: .command m p₂ b :: rest →
    Host.Core.run Sys2Proof.core 2 s = .next t →
    Host.Core.run Sys2Proof.core 2 { s with inputs := .command m p₂ b :: .command n p₁ a :: rest } =
      .next { t with port := n, accept := a }

/-- R255: an RX_BYTE and a TX_PUT give the same state, the same deliveries and the same transport bytes in either order. -/
def Obligations.ReplyOrderDoesNotMatter : Prop :=
  ∀ (s t u : State) (b h size : Byte) (p : List Byte) (q : Port),
    exec (.rxByte b) s = .next t → exec (.txPut h size p) t = .next u → u.ports[s.port]? = some q →
    ∃ (t' u' : State) (q' : Port), exec (.txPut h size p) s = .next t' ∧ exec (.rxByte b) t' = .next u' ∧
      u'.ports[s.port]? = some q' ∧ q'.block = q.block ∧ deliveries q'.out = deliveries q.out ∧
      txBytes q'.out = txBytes q.out

/-- R252, R136, R251 (1): no step changes what has already left an instance, a parameter, or the number of instances. -/
def Obligations.OutputsAndParametersAreKept : Prop :=
  ∀ (s t : State), step s = .next t →
    t.params = s.params ∧ t.ports.length = s.ports.length ∧
    ∀ (n : Nat) (q q' : Port), s.ports[n]? = some q → t.ports[n]? = some q' → q.out <+: q'.out

/-- R221: an ENC, DEC or TX_PUT that answers with an error code leaves every instance's state as it was. -/
def Obligations.ErrorsLeaveStateUnchanged : Prop :=
  ∀ (s t : State) (i : Instr) (st : Byte),
    ((∃ n p, i = .enc n p) ∨ (∃ m e, i = .dec m e) ∨ ∃ h size p, i = .txPut h size p) →
    exec i s = .next t → t.lastStatus = some st → st ≠ 0x00 →
    (st = 0x01 ∨ st = 0x02 ∨ st = 0x03) ∧ t.ports.map Port.block = s.ports.map Port.block

/-- R77: the nibbles of `hdr1` under each layout, and that packing and splitting are inverse. -/
def Obligations.Hdr1NibbleLayout : Prop :=
  (∀ h : Byte, h.toNat = (ifaceOf .ifaceHigh h).toNat * 16 + (idOf .ifaceHigh h).toNat) ∧
  (∀ h : Byte, h.toNat = (idOf .ifaceLow h).toNat * 16 + (ifaceOf .ifaceLow h).toNat) ∧
  (∀ (l : Hdr1Layout) (h : Byte), packHdr1 l (ifaceOf l h) (idOf l h) = h) ∧
  (∀ (l : Hdr1Layout) (iface id : BitVec 4),
    ifaceOf l (packHdr1 l iface id) = iface ∧ idOf l (packHdr1 l iface id) = id)

/-- R253, I9: a command that overlaps another is refused. R251 (2), I10: a command before the first reset is refused, an
overlapping one too, under the name `beforeReset` (which of the two names is the MODEL's choice, log 26). That a packet, an
unassigned opcode's too, presented to an instance that does not exist is refused is the MODEL's reading, log 12: no rule says
so. -/
def Obligations.IllegalPresentationsAreRefused : Prop :=
  (∀ (s : State) (n : Nat) (packet : List Byte) (rest : List Input), s.resetSeen = true →
    s.inputs = .overlap n packet :: rest → step s = .refused .overlappingCommand) ∧
  (∀ (s : State) (n : Nat) (packet : List Byte) (rest : List Input), s.resetSeen = false →
    s.inputs = .overlap n packet :: rest → step s = .refused .beforeReset) ∧
  (∀ (s : State) (n a : Nat) (packet : List Byte) (rest : List Input), s.resetSeen = false →
    s.inputs = .command n packet a :: rest → step s = .refused .beforeReset) ∧
  (∀ (s : State) (n a : Nat) (rest : List Input) (i : Instr), s.resetSeen = true → i.wf = true →
    s.ports.length ≤ n → s.inputs = .command n (encode i) a :: rest → step s = .refused .noSuchPort) ∧
  (∀ (s : State) (n a : Nat) (rest : List Input) (op : Byte), s.resetSeen = true →
    op ∉ ([0x01, 0x02, 0x10, 0x11, 0x20, 0x21, 0x30] : List Byte) →
    s.ports.length ≤ n → s.inputs = .command n [op] a :: rest → step s = .refused .noSuchPort)

/-- R232 (the model's reading, log 8): with nothing presented a step changes nothing. -/
def Obligations.NothingHappensBetweenCommands : Prop :=
  ∀ s : State, s.inputs = [] → step s = .next s
end

