-- ==== Sys2Proof/Laws/Memory.lean ====
section
/-! SUPPORT. The laws of a buffer's bytes: read after write, the canonical form, and that equal reads are equal buffers. -/

namespace Sys2Proof.Machine

theorem Memory.read_write_same (m : Memory) (i : Nat) (v : Byte) : Memory.read (Memory.write m i v) i = some v := by
  induction m with
  | nil => simp [Memory.write, Memory.read]
  | cons c m ih =>
    obtain ⟨j, w⟩ := c
    simp only [Memory.write]
    split
    · simp [Memory.read]
    · split
      · simp [Memory.read]
      · rename_i h; simp [Memory.read, h, ih]

theorem Memory.read_write_other {m : Memory} {i j : Nat} (v : Byte) (h : j ≠ i) :
    Memory.read (Memory.write m i v) j = Memory.read m j := by
  induction m with
  | nil => simp [Memory.write, Memory.read, h]
  | cons c m ih =>
    obtain ⟨l, w⟩ := c
    simp only [Memory.write]
    split
    · simp [Memory.read, h]
    · split
      · rename_i h'; subst h'; simp [Memory.read, h]
      · simp [Memory.read, ih]

theorem Memory.above_write {m : Memory} {i l : Nat} (v : Byte) (hm : Memory.above l m = true) (h : l < i) :
    Memory.above l (Memory.write m i v) = true := by
  induction m with
  | nil => simp [Memory.write, Memory.above, h]
  | cons c m ih =>
    obtain ⟨j, w⟩ := c
    simp only [Memory.above, List.all_cons, Bool.and_eq_true, decide_eq_true_eq] at hm ih
    simp only [Memory.write]
    split
    · simp [Memory.above, h, hm.1]; simpa using hm.2
    · split
      · simp [Memory.above, h]; simpa using hm.2
      · simp only [Memory.above, List.all_cons, Bool.and_eq_true, decide_eq_true_eq]
        exact ⟨hm.1, ih hm.2⟩

theorem Memory.above_mono {m : Memory} {i j : Nat} (hm : Memory.above j m = true) (h : i ≤ j) :
    Memory.above i m = true := by
  simp only [Memory.above, List.all_eq_true, decide_eq_true_eq] at *
  exact fun c hc => lt_of_le_of_lt h (hm c hc)

/-- A write keeps the canonical form. -/
theorem Memory.wf_write {m : Memory} (i : Nat) (v : Byte) (hm : Memory.wf m = true) :
    Memory.wf (Memory.write m i v) = true := by
  induction m with
  | nil => simp [Memory.write, Memory.wf, Memory.above]
  | cons c m ih =>
    obtain ⟨j, w⟩ := c
    simp only [Memory.wf, Bool.and_eq_true] at hm ih
    simp only [Memory.write]
    split
    · rename_i h
      simp only [Memory.wf, Bool.and_eq_true]
      refine ⟨?_, hm⟩
      simp only [Memory.above, List.all_cons, Bool.and_eq_true, decide_eq_true_eq]
      exact ⟨h, Memory.above_mono hm.1 (le_of_lt h)⟩
    · split
      · rename_i h; subst h
        simp only [Memory.wf, Bool.and_eq_true]; exact hm
      · rename_i h h'
        simp only [Memory.wf, Bool.and_eq_true]
        exact ⟨Memory.above_write v hm.1 (by omega), ih hm.2⟩

/-- A write inside a buffer leaves every listed index inside it. -/
theorem Memory.mem_write {m : Memory} {i : Nat} {v : Byte} {c : Host.Cell} (h : c ∈ Memory.write m i v) :
    c = (i, v) ∨ c ∈ m := by
  induction m with
  | nil => simpa [Memory.write] using h
  | cons d m ih =>
    obtain ⟨j, w⟩ := d
    simp only [Memory.write] at h
    split at h
    · simpa using h
    · split at h
      · simp only [List.mem_cons] at h ⊢; tauto
      · simp only [List.mem_cons] at h ⊢; tauto

theorem Memory.read_none_of_above {m : Memory} {i : Nat} (h : Memory.above i m = true) : Memory.read m i = none := by
  induction m with
  | nil => rfl
  | cons c m ih =>
    obtain ⟨j, w⟩ := c
    simp only [Memory.above, List.all_cons, Bool.and_eq_true, decide_eq_true_eq] at h ih
    have : i ≠ j := by omega
    simp [Memory.read, this, ih h.2]

/-- Two buffers in canonical form that read the same at every index are the same list. -/
theorem Memory.ext_of_wf {m m' : Memory} (hm : Memory.wf m = true) (hm' : Memory.wf m' = true)
    (h : ∀ i, Memory.read m i = Memory.read m' i) : m = m' := by
  induction m generalizing m' with
  | nil =>
    cases m' with
    | nil => rfl
    | cons c m' => obtain ⟨j, w⟩ := c; have := h j; simp [Memory.read] at this
  | cons c m ih =>
    obtain ⟨j, w⟩ := c
    cases m' with
    | nil => have := h j; simp [Memory.read] at this
    | cons c' m' =>
      obtain ⟨j', w'⟩ := c'
      simp only [Memory.wf, Bool.and_eq_true] at hm hm'
      have hj : j = j' := by
        rcases Nat.lt_trichotomy j j' with hlt | heq | hgt
        · have := h j
          simp [Memory.read, Nat.ne_of_lt hlt,
            Memory.read_none_of_above (Memory.above_mono hm'.1 (le_of_lt hlt))] at this
        · exact heq
        · have := h j'
          simp [Memory.read, Nat.ne_of_lt hgt,
            Memory.read_none_of_above (Memory.above_mono hm.1 (le_of_lt hgt))] at this
      subst hj
      have hw : w = w' := by have := h j; simpa [Memory.read] using this
      subst hw
      have htail : m = m' := by
        refine ih hm.2 hm'.2 fun i => ?_
        by_cases hi : i = j
        · subst hi
          rw [Memory.read_none_of_above hm.1, Memory.read_none_of_above hm'.1]
        · have := h i; simpa [Memory.read, hi] using this
      rw [htail]

end Sys2Proof.Machine
end

