-- ==== Sys2Proof/Laws/State.lean ====
section
/-! SUPPORT. What each named update of the state leaves in each field. -/

namespace Sys2Proof.Machine

section updates
variable (s : State) (p : Port) (k : Block) (is : List Input) (n a : Nat) (bs : List Byte)

@[simp] theorem State.putPort_params : (s.putPort p).params = s.params := rfl
@[simp] theorem State.putPort_ports : (s.putPort p).ports = s.ports.set s.port p := rfl
@[simp] theorem State.putPort_inputs : (s.putPort p).inputs = s.inputs := rfl
@[simp] theorem State.putPort_port : (s.putPort p).port = s.port := rfl
@[simp] theorem State.putPort_accept : (s.putPort p).accept = s.accept := rfl
@[simp] theorem State.putPort_resetSeen : (s.putPort p).resetSeen = s.resetSeen := rfl

@[simp] theorem State.withInputs_params : (s.withInputs is).params = s.params := rfl
@[simp] theorem State.withInputs_ports : (s.withInputs is).ports = s.ports := rfl
@[simp] theorem State.withInputs_inputs : (s.withInputs is).inputs = is := rfl
@[simp] theorem State.withInputs_port : (s.withInputs is).port = s.port := rfl
@[simp] theorem State.withInputs_accept : (s.withInputs is).accept = s.accept := rfl
@[simp] theorem State.withInputs_resetSeen : (s.withInputs is).resetSeen = s.resetSeen := rfl

@[simp] theorem State.select_params : (s.select n a).params = s.params := rfl
@[simp] theorem State.select_ports : (s.select n a).ports = s.ports := rfl
@[simp] theorem State.select_inputs : (s.select n a).inputs = s.inputs := rfl
@[simp] theorem State.select_port : (s.select n a).port = n := rfl
@[simp] theorem State.select_accept : (s.select n a).accept = a := rfl
@[simp] theorem State.select_resetSeen : (s.select n a).resetSeen = s.resetSeen := rfl

@[simp] theorem State.withAccept_params : (s.withAccept a).params = s.params := rfl
@[simp] theorem State.withAccept_ports : (s.withAccept a).ports = s.ports := rfl
@[simp] theorem State.withAccept_inputs : (s.withAccept a).inputs = s.inputs := rfl
@[simp] theorem State.withAccept_port : (s.withAccept a).port = s.port := rfl
@[simp] theorem State.withAccept_accept : (s.withAccept a).accept = a := rfl
@[simp] theorem State.withAccept_resetSeen : (s.withAccept a).resetSeen = s.resetSeen := rfl

@[simp] theorem State.presentPacket_params : (s.presentPacket bs).params = s.params := rfl
@[simp] theorem State.presentPacket_ports : (s.presentPacket bs).ports = s.ports := rfl
@[simp] theorem State.presentPacket_inputs :
    (s.presentPacket bs).inputs = .command s.port bs s.accept :: s.inputs := rfl
@[simp] theorem State.presentPacket_port : (s.presentPacket bs).port = s.port := rfl
@[simp] theorem State.presentPacket_accept : (s.presentPacket bs).accept = s.accept := rfl
@[simp] theorem State.presentPacket_resetSeen : (s.presentPacket bs).resetSeen = true := rfl

@[simp] theorem State.resetAll_params : s.resetAll.params = s.params := rfl
@[simp] theorem State.resetAll_ports : s.resetAll.ports = s.ports.map Port.reset := rfl
@[simp] theorem State.resetAll_inputs : s.resetAll.inputs = s.inputs := rfl
@[simp] theorem State.resetAll_port : s.resetAll.port = s.port := rfl
@[simp] theorem State.resetAll_accept : s.resetAll.accept = s.accept := rfl
@[simp] theorem State.resetAll_resetSeen : s.resetAll.resetSeen = true := rfl

@[simp] theorem Port.reset_block : p.reset.block = Block.reset := rfl
@[simp] theorem Port.reset_out : p.reset.out = p.out := rfl

@[simp] theorem Block.answer_block : (k.answer bs).block = k := rfl
@[simp] theorem Block.answer_out : (k.answer bs).out = [.response bs] := rfl

@[simp] theorem rxResetBlock_ps : (rxResetBlock k).ps = .waitForStart := rfl
@[simp] theorem rxResetBlock_hdr1 : (rxResetBlock k).hdr1 = 0x00 := rfl
@[simp] theorem rxResetBlock_size : (rxResetBlock k).size = 0x00 := rfl
@[simp] theorem rxResetBlock_rxIdx : (rxResetBlock k).rxIdx = 0 := rfl
@[simp] theorem rxResetBlock_rxBuf : (rxResetBlock k).rxBuf = k.rxBuf := rfl
@[simp] theorem rxResetBlock_txBuf : (rxResetBlock k).txBuf = k.txBuf := rfl
@[simp] theorem rxResetBlock_txHead : (rxResetBlock k).txHead = k.txHead := rfl
@[simp] theorem rxResetBlock_txCount : (rxResetBlock k).txCount = k.txCount := rfl

end updates

end Sys2Proof.Machine
end

