-- ==== Sys2Proof/Laws/Ops.lean ====
section
/-! SUPPORT. One lemma for each shared operation: what it answers and when. -/

namespace Sys2Proof.Machine

/-! ### Buffer access -/

theorem bufRead_eq_ok {buf : BufName} {cap i : Nat} {m : Memory} {v : Byte} :
    bufRead buf cap m i = .ok v ↔ i < cap ∧ Memory.read m i = some v := by
  unfold bufRead
  split
  · split <;> simp_all
  · simp_all

theorem bufWrite_eq_ok {buf : BufName} {cap i : Nat} {m m' : Memory} {v : Byte} :
    bufWrite buf cap m i v = .ok m' ↔ i < cap ∧ m' = Memory.write m i v := by
  unfold bufWrite
  split
  · simp_all [eq_comm]
  · simp_all

@[simp] theorem bufReadAll_nil {buf : BufName} {cap : Nat} {m : Memory} : bufReadAll buf cap m [] = .ok [] := rfl

theorem bufReadAll_cons_eq_ok {buf : BufName} {cap i : Nat} {m : Memory} {is : List Nat} {vs : List Byte} :
    bufReadAll buf cap m (i :: is) = .ok vs ↔
      ∃ v ws, vs = v :: ws ∧ i < cap ∧ Memory.read m i = some v ∧ bufReadAll buf cap m is = .ok ws := by
  rw [bufReadAll]
  constructor
  · intro h
    split at h
    · cases h
    · rename_i v hv
      split at h
      · cases h
      · rename_i ws hws
        cases h
        obtain ⟨h1, h2⟩ := bufRead_eq_ok.1 hv
        exact ⟨v, ws, rfl, h1, h2, hws⟩
  · rintro ⟨v, ws, rfl, h1, h2, h3⟩
    simp only [bufRead_eq_ok.2 ⟨h1, h2⟩, h3]

/-- Reading is pointwise: the bytes come back exactly when each index is inside and written. -/
theorem bufReadAll_eq_ok_iff {buf : BufName} {cap : Nat} {m : Memory} {is : List Nat} {vs : List Byte} :
    bufReadAll buf cap m is = .ok vs ↔ (∀ i ∈ is, i < cap) ∧ is.map (Memory.read m) = vs.map some := by
  induction is generalizing vs with
  | nil => cases vs <;> simp
  | cons i is ih =>
    rw [bufReadAll_cons_eq_ok]
    constructor
    · rintro ⟨v, ws, rfl, h1, h2, h3⟩
      obtain ⟨h4, h5⟩ := ih.1 h3
      refine ⟨?_, ?_⟩
      · intro j hj
        rcases List.mem_cons.1 hj with rfl | hj
        · exact h1
        · exact h4 j hj
      · simp [h2, h5]
    · rintro ⟨h1, h2⟩
      cases vs with
      | nil => simp at h2
      | cons v ws =>
        simp only [List.map_cons, List.cons.injEq] at h2
        exact ⟨v, ws, rfl, h1 i (by simp), h2.1, ih.2 ⟨fun j hj => h1 j (by simp [hj]), h2.2⟩⟩

theorem bufReadAll_length {buf : BufName} {cap : Nat} {m : Memory} {is : List Nat} {vs : List Byte}
    (h : bufReadAll buf cap m is = .ok vs) : vs.length = is.length := by
  have := congrArg List.length (bufReadAll_eq_ok_iff.1 h).2
  simpa using this.symm

theorem bufReadAll_append {buf : BufName} {cap : Nat} {m : Memory} {is js : List Nat} {us vs : List Byte}
    (h1 : bufReadAll buf cap m is = .ok us) (h2 : bufReadAll buf cap m js = .ok vs) :
    bufReadAll buf cap m (is ++ js) = .ok (us ++ vs) := by
  rw [bufReadAll_eq_ok_iff] at *
  refine ⟨?_, by simp [h1.2, h2.2]⟩
  intro i hi
  rcases List.mem_append.1 hi with hi | hi
  · exact h1.1 i hi
  · exact h2.1 i hi

theorem bufReadAll_append_inv {buf : BufName} {cap : Nat} {m : Memory} {is js : List Nat} {vs : List Byte}
    (h : bufReadAll buf cap m (is ++ js) = .ok vs) :
    bufReadAll buf cap m is = .ok (vs.take is.length) ∧ bufReadAll buf cap m js = .ok (vs.drop is.length) := by
  rw [bufReadAll_eq_ok_iff] at h
  obtain ⟨h1, h2⟩ := h
  rw [List.map_append] at h2
  have e1 := congrArg (List.take is.length) h2
  have e2 := congrArg (List.drop is.length) h2
  simp only [List.take_left' (List.length_map (Memory.read m)), List.drop_left' (List.length_map (Memory.read m)),
    ← List.map_take, ← List.map_drop] at e1 e2
  exact ⟨bufReadAll_eq_ok_iff.2 ⟨fun i hi => h1 i (by simp [hi]), e1⟩,
    bufReadAll_eq_ok_iff.2 ⟨fun i hi => h1 i (by simp [hi]), e2⟩⟩

/-- Reading depends only on the bytes read. -/
theorem bufReadAll_congr {buf : BufName} {cap : Nat} {m m' : Memory} {is : List Nat}
    (h : ∀ i ∈ is, Memory.read m' i = Memory.read m i) : bufReadAll buf cap m' is = bufReadAll buf cap m is := by
  induction is with
  | nil => rfl
  | cons i is ih =>
    have hi : bufRead buf cap m' i = bufRead buf cap m i := by
      unfold bufRead; rw [h i (by simp)]
    rw [bufReadAll, bufReadAll, hi, ih fun j hj => h j (by simp [hj])]

/-- The buffer after writing pairs in order. -/
def writeAll (m : Memory) : List (Nat × Byte) → Memory
  | [] => m
  | (i, v) :: ivs => writeAll (Memory.write m i v) ivs

theorem bufWriteAll_eq_ok {buf : BufName} {cap : Nat} {m : Memory} {ivs : List (Nat × Byte)}
    (h : ∀ c ∈ ivs, c.1 < cap) : bufWriteAll buf cap m ivs = .ok (writeAll m ivs) := by
  induction ivs generalizing m with
  | nil => rfl
  | cons c ivs ih =>
    obtain ⟨i, v⟩ := c
    have : bufWrite buf cap m i v = .ok (Memory.write m i v) := bufWrite_eq_ok.2 ⟨h (i, v) (by simp), rfl⟩
    simp only [bufWriteAll, this, writeAll]
    exact ih fun c hc => h c (by simp [hc])

theorem bufWriteAll_ok_inv {buf : BufName} {cap : Nat} {m m' : Memory} {ivs : List (Nat × Byte)}
    (h : bufWriteAll buf cap m ivs = .ok m') : m' = writeAll m ivs := by
  induction ivs generalizing m with
  | nil => cases h; rfl
  | cons c ivs ih =>
    obtain ⟨i, v⟩ := c
    simp only [bufWriteAll] at h
    split at h
    · cases h
    · rename_i m'' hm
      rw [(bufWrite_eq_ok.1 hm).2] at h
      exact ih h

theorem writeAll_wf {m : Memory} {ivs : List (Nat × Byte)} (hm : Memory.wf m = true) :
    Memory.wf (writeAll m ivs) = true := by
  induction ivs generalizing m with
  | nil => exact hm
  | cons c ivs ih => exact ih (Memory.wf_write c.1 c.2 hm)

theorem Memory.inside_write {cap i : Nat} {m : Memory} (v : Byte) (hm : Memory.inside cap m = true) (h : i < cap) :
    Memory.inside cap (Memory.write m i v) = true := by
  simp only [Memory.inside, List.all_eq_true, decide_eq_true_eq] at *
  intro c hc
  rcases Memory.mem_write hc with rfl | hc
  · exact h
  · exact hm c hc

theorem writeAll_inside {cap : Nat} {m : Memory} {ivs : List (Nat × Byte)} (hm : Memory.inside cap m = true)
    (h : ∀ c ∈ ivs, c.1 < cap) : Memory.inside cap (writeAll m ivs) = true := by
  induction ivs generalizing m with
  | nil => exact hm
  | cons c ivs ih =>
    exact ih (Memory.inside_write c.2 hm (h c (by simp))) fun d hd => h d (by simp [hd])

theorem read_writeAll_other {m : Memory} {ivs : List (Nat × Byte)} {i : Nat} (h : ∀ c ∈ ivs, c.1 ≠ i) :
    Memory.read (writeAll m ivs) i = Memory.read m i := by
  induction ivs generalizing m with
  | nil => rfl
  | cons c ivs ih =>
    rw [writeAll, ih fun d hd => h d (by simp [hd]), Memory.read_write_other c.2 (h c (by simp)).symm]

/-- Writing bytes at distinct indices: each index then reads its byte. -/
theorem map_read_writeAll_zip {m : Memory} {is : List Nat} {vs : List Byte} (hn : is.Nodup)
    (hl : is.length = vs.length) : is.map (Memory.read (writeAll m (is.zip vs))) = vs.map some := by
  induction is generalizing m vs with
  | nil => cases vs with
    | nil => rfl
    | cons v vs => simp at hl
  | cons i is ih =>
    cases vs with
    | nil => simp at hl
    | cons v vs =>
      obtain ⟨hi, hn⟩ := List.nodup_cons.1 hn
      have h1 : ∀ c ∈ is.zip vs, c.1 ≠ i := by
        rintro ⟨j, w⟩ hc rfl
        exact hi (List.of_mem_zip hc).1
      simp only [List.zip_cons_cons, writeAll, List.map_cons, List.cons.injEq]
      exact ⟨by rw [read_writeAll_other h1, Memory.read_write_same], ih hn (by simpa using hl)⟩

/-! ### The ring -/

@[simp] theorem ringIndices_length (cap start k : Nat) : (ringIndices cap start k).length = k := by
  simp [ringIndices]

theorem mem_ringIndices {cap start k i : Nat} : i ∈ ringIndices cap start k ↔ ∃ j < k, (start + j) % cap = i := by
  simp [ringIndices]

theorem ringIndices_lt {cap start k : Nat} (h : 0 < cap) : ∀ i ∈ ringIndices cap start k, i < cap := by
  intro i hi
  obtain ⟨j, _, rfl⟩ := mem_ringIndices.1 hi
  exact Nat.mod_lt _ h

theorem ringIndices_add (cap start a b : Nat) :
    ringIndices cap start (a + b) = ringIndices cap start a ++ ringIndices cap (start + a) b := by
  simp [ringIndices, List.range_add, Nat.add_assoc]

theorem ringIndices_mod (cap start k : Nat) : ringIndices cap (start % cap) k = ringIndices cap start k := by
  simp [ringIndices]

/-- Two places of the ring less than a turn apart are different bytes. -/
theorem ring_inj {cap start a b : Nat} (hab : a < b) (hb : b < a + cap) : (start + a) % cap ≠ (start + b) % cap := by
  intro h
  have hmod : (b - a) % cap = 0 := by
    have := (Nat.modEq_iff_dvd' (show start + a ≤ start + b by omega)).1 h
    rw [show start + b - (start + a) = b - a by omega] at this
    exact Nat.mod_eq_zero_of_dvd this
  rw [Nat.mod_eq_of_lt (by omega)] at hmod
  omega

theorem ringIndices_nodup {cap start k : Nat} (h : k ≤ cap) : (ringIndices cap start k).Nodup := by
  rw [ringIndices, List.nodup_map_iff_inj_on (List.nodup_range)]
  intro a ha b hb hab
  simp only [List.mem_range] at ha hb
  by_contra hne
  rcases Nat.lt_or_gt_of_ne hne with hlt | hgt
  · exact ring_inj hlt (by omega) hab
  · exact ring_inj hgt (by omega) hab.symm

/-! ### Commands on an instance -/

/-- Everything `onPort` can do when it answers next. -/
theorem onPort_eq_next {s t : State} {f : Block → Except Fault Effect} :
    s.onPort f = .next t ↔
      ∃ p e, s.ports[s.port]? = some p ∧ f p.block = .ok e ∧ t = s.putPort ⟨e.block, p.out ++ e.out⟩ := by
  unfold State.onPort
  constructor
  · intro h
    split at h
    · cases h
    · rename_i p hp
      split at h
      · cases h
      · rename_i e he
        cases h
        exact ⟨p, e, hp, he, rfl⟩
  · rintro ⟨p, e, hp, he, rfl⟩
    simp only [hp, he]

theorem onPort_next {s : State} {f : Block → Except Fault Effect} {p : Port} {e : Effect}
    (hp : s.ports[s.port]? = some p) (he : f p.block = .ok e) :
    s.onPort f = .next (s.putPort ⟨e.block, p.out ++ e.out⟩) :=
  onPort_eq_next.2 ⟨p, e, hp, he, rfl⟩

theorem onPort_eq_fault {s : State} {r : Fault} {f : Block → Except Fault Effect} :
    s.onPort f = .fault r ↔ ∃ p, s.ports[s.port]? = some p ∧ f p.block = .error r := by
  unfold State.onPort
  constructor
  · intro h
    split at h
    · cases h
    · rename_i p hp
      split at h
      · rename_i r' hr
        cases h
        exact ⟨p, hp, hr⟩
      · cases h
  · rintro ⟨p, hp, he⟩
    simp only [hp, he]

theorem onPort_eq_refused {s : State} {r : Refusal} {f : Block → Except Fault Effect} :
    s.onPort f = .refused r ↔ s.ports[s.port]? = none ∧ r = .noSuchPort := by
  unfold State.onPort
  split
  · rename_i h; simp [h, eq_comm]
  · rename_i p h
    simp only [h]
    split <;> simp

end Sys2Proof.Machine
end

