-- ==== Sys2Proof/Laws/Codec.lean ====
section
/-! SUPPORT. How the codec's loops go over one group: the equations proofs about R100 to R105 recurse along. -/

namespace Sys2Proof.Machine

/-- Every payload is free of zeros, or has a first zero. -/
theorem split_at_zero (p : List Byte) :
    Config.codecDelim ∉ p ∨ ∃ run rest, Config.codecDelim ∉ run ∧ p = run ++ Config.codecDelim :: rest := by
  induction p with
  | nil => simp
  | cons b p ih =>
    by_cases hb : b = Config.codecDelim
    · exact .inr ⟨[], p, by simp, by simp [hb]⟩
    · rcases ih with h | ⟨run, rest, h, rfl⟩
      · exact .inl (by simp [Ne.symm hb, h])
      · exact .inr ⟨b :: run, rest, by simp [Ne.symm hb, h], by simp⟩

theorem cobsEncodeLoop_append {run : List Byte} (acc q : List Byte) (h : Config.codecDelim ∉ run) :
    cobsEncodeLoop acc (run ++ q) = cobsEncodeLoop (acc ++ run) q := by
  induction run generalizing acc with
  | nil => simp
  | cons b run ih =>
    simp only [List.mem_cons, not_or] at h
    rw [List.cons_append, cobsEncodeLoop, if_neg (Ne.symm h.1), ih _ h.2, List.append_assoc, List.singleton_append]

/-- A payload without zeros is one group. -/
theorem cobsEncode_of_not_mem {p : List Byte} (h : Config.codecDelim ∉ p) : cobsEncode p = cobsGroup p := by
  rw [cobsEncode, cobsEncodeLoop_append [] _ h]
  simp [cobsEncodeLoop]

/-- The group up to the first zero, then the rest. -/
theorem cobsEncode_append {run : List Byte} (rest : List Byte) (h : Config.codecDelim ∉ run) :
    cobsEncode (run ++ Config.codecDelim :: rest) = cobsGroup run ++ cobsEncode rest := by
  rw [cobsEncode, List.append_assoc, cobsEncodeLoop_append [] _ h]
  simp [cobsEncodeLoop, cobsEncode]

/-- The length of an encoding, for a payload of any length. -/
theorem cobsEncode_length (p : List Byte) : (cobsEncode p).length = p.length + 1 := by
  induction hn : p.length using Nat.strong_induction_on generalizing p with
  | _ n ih =>
    rcases split_at_zero p with h | ⟨run, rest, h, rfl⟩
    · rw [cobsEncode_of_not_mem h, cobsGroup, List.length_cons, hn]
    · rw [cobsEncode_append rest h, List.length_append, ih rest.length (by simp at hn; omega) rest rfl]
      simp [cobsGroup] at hn ⊢
      omega

theorem toNat_byteOf {n : Nat} (h : n ≤ 255) : (byteOf n).toNat = n := by
  simp only [byteOf, BitVec.toNat_ofNat]; omega

theorem byteOf_toNat (b : Byte) : byteOf b.toNat = b := by simp [byteOf]

/-- The loop needs no more passes than bytes. -/
theorem cobsDecodeLoop_fuel {n : Nat} {e : List Byte} (h : e.length ≤ n) :
    cobsDecodeLoop n e = cobsDecodeLoop e.length e := by
  induction n using Nat.strong_induction_on generalizing e with
  | _ n ih =>
    cases e with
    | nil => cases n <;> rfl
    | cons c r =>
      cases n with
      | zero => simp at h
      | succ n =>
        simp only [List.length_cons, Nat.add_le_add_iff_right] at h
        have hd : (r.drop (c.toNat - 1)).length ≤ r.length := by simp
        simp only [List.length_cons, cobsDecodeLoop]
        rw [ih n (by omega) (le_trans hd h)]
        by_cases hn : r.length = n
        · rw [hn, ih n (by omega) (le_trans hd h)]
        · rw [ih r.length (by omega) hd]

/-- A code byte past the end fails. -/
theorem cobsDecodeLoop_overrun {c : Byte} {r : List Byte} (h : r.length + 1 < c.toNat) :
    cobsDecodeLoop (r.length + 1) (c :: r) = none := by
  simp [cobsDecodeLoop, h]

/-- The last group gives its data bytes. -/
theorem cobsDecodeLoop_last {c : Byte} {r : List Byte} (h : r.length + 1 = c.toNat) :
    cobsDecodeLoop (r.length + 1) (c :: r) = some r := by
  have : r.length ≤ c.toNat - 1 := by omega
  rw [cobsDecodeLoop, if_neg (by omega), if_pos h, List.take_of_length_le this]

/-- Any other group gives its data bytes and a zero, unless its code byte is 0xFF. -/
theorem cobsDecodeLoop_group {c : Byte} {r : List Byte} (h : c.toNat < r.length + 1) (hc : c ≠ 0xFF) :
    cobsDecodeLoop (r.length + 1) (c :: r) =
      (cobsDecodeLoop (r.drop (c.toNat - 1)).length (r.drop (c.toNat - 1))).map
        fun out => r.take (c.toNat - 1) ++ [Config.codecDelim] ++ out := by
  rw [cobsDecodeLoop, if_neg (by omega), if_neg (by omega),
    cobsDecodeLoop_fuel (n := r.length) (e := r.drop (c.toNat - 1)) (by simp)]
  cases cobsDecodeLoop (r.drop (c.toNat - 1)).length (r.drop (c.toNat - 1)) with
  | none => rfl
  | some out => simp only [if_neg hc, Option.map_some]

theorem cobsDecode_of_not_mem {e : List Byte} (h : Config.codecDelim ∉ e) :
    cobsDecode e = cobsDecodeLoop e.length e := by
  simp [cobsDecode, h]

theorem cobsDecode_of_mem {e : List Byte} (h : Config.codecDelim ∈ e) : cobsDecode e = none := by
  simp [cobsDecode, h]

theorem not_mem_of_cobsDecode {e p : List Byte} (h : cobsDecode e = some p) : Config.codecDelim ∉ e := by
  intro hm
  rw [cobsDecode_of_mem hm] at h
  cases h

end Sys2Proof.Machine
end

