-- ==== Sys2Proof/Laws/Decode.lean ====
section
/-! SUPPORT. The decoder, once: what its helper gives, and that it gives only well-formed commands. -/

namespace Sys2Proof

theorem takeBytes_eq_ok {k : Nat} {bs p r : List Byte} :
    takeBytes k bs = .ok (p, r) ↔ p.length = k ∧ bs = p ++ r := by
  unfold takeBytes
  constructor
  · intro h
    split at h
    · cases h
    · rename_i hl
      cases h
      exact ⟨by simp; omega, (List.take_append_drop k bs).symm⟩
  · rintro ⟨rfl, rfl⟩
    simp

/-- The opcode byte determines the command, and the command its byte (R72). -/
theorem Opcode.ofByte_toByte (o : Opcode) : Opcode.ofByte o.toByte = some o := by cases o <;> rfl

theorem Opcode.toByte_of_ofByte {op : Byte} {o : Opcode} (h : Opcode.ofByte op = some o) : o.toByte = op := by
  unfold Opcode.ofByte at h
  repeat' split at h
  all_goals first | (cases h; subst op; rfl) | cases h

/-- Everything the decoder can give. -/
theorem decode_cases {bs rest : List Byte} {c : Command} (h : decode bs = .ok (c, rest)) :
    bs = c.encode ++ rest ∧ c.wf = true := by
  unfold decode at h
  split at h
  · cases h
  · rename_i op r
    split at h
    · rename_i ho
      cases h
      exact ⟨rfl, by simp [Command.wf, ho]⟩
    · rename_i ho
      cases h
      exact ⟨by simp [Command.encode, encode, Opcode.toByte_of_ofByte ho], rfl⟩
    · rename_i ho
      cases h
      exact ⟨by simp [Command.encode, encode, Opcode.toByte_of_ofByte ho], rfl⟩
    · rename_i ho
      cases h
      exact ⟨by simp [Command.encode, encode, Opcode.toByte_of_ofByte ho], rfl⟩
    · rename_i b r ho
      cases h
      exact ⟨by simp [Command.encode, encode, Opcode.toByte_of_ofByte ho], rfl⟩
    · rename_i n r ho
      split at h
      · cases h
      · rename_i p r' ht
        cases h
        obtain ⟨hl, rfl⟩ := takeBytes_eq_ok.1 ht
        exact ⟨by simp [Command.encode, encode, Opcode.toByte_of_ofByte ho], by simp [Command.wf, Instr.wf, hl]⟩
    · rename_i m r ho
      split at h
      · cases h
      · rename_i p r' ht
        cases h
        obtain ⟨hl, rfl⟩ := takeBytes_eq_ok.1 ht
        exact ⟨by simp [Command.encode, encode, Opcode.toByte_of_ofByte ho], by simp [Command.wf, Instr.wf, hl]⟩
    · rename_i hd n r ho
      split at h
      · cases h
      · rename_i p r' ht
        cases h
        obtain ⟨hl, rfl⟩ := takeBytes_eq_ok.1 ht
        exact ⟨by simp [Command.encode, encode, Opcode.toByte_of_ofByte ho], by simp [Command.wf, Instr.wf, hl]⟩
    all_goals cases h

/-- A whole packet is the decoder's answer with nothing left. -/
theorem decodePacket_eq_ok {bs : List Byte} {c : Command} : decodePacket bs = .ok c ↔ decode bs = .ok (c, []) := by
  unfold decodePacket
  constructor
  · intro h
    split at h
    · cases h
    · rename_i c' hd
      cases h
      exact hd
    · cases h
  · intro h
    simp only [h]

/-- A packet the decoder takes is its command's encoding, and the command is well formed. -/
theorem decodePacket_cases {bs : List Byte} {c : Command} (h : decodePacket bs = .ok c) :
    bs = c.encode ∧ c.wf = true := by
  obtain ⟨h1, h2⟩ := decode_cases (decodePacket_eq_ok.1 h)
  exact ⟨by simpa using h1, h2⟩

end Sys2Proof
end

