-- ==== Sys2Proof/Laws/Parser.lean ====
section
/-! SUPPORT. Everything RX_BYTE can do, once: the inversion of its arms, that it answers from every state that meets the
invariant, and that it keeps the invariant of its instance. -/

namespace Sys2Proof.Machine

variable {P : Params} {port : Nat} {b : Byte} {k : Block} {a : ArmEffect}

theorem rxByteArm_waitForStart (h : k.ps = .waitForStart) : rxByteArm P port b k = .ok (armWait b k) := by
  simp only [rxByteArm, h]

theorem rxByteArm_getHeader (h : k.ps = .getHeader) : rxByteArm P port b k = .ok (armHeader b k) := by
  simp only [rxByteArm, h]

theorem rxByteArm_getSize (h : k.ps = .getSize) : rxByteArm P port b k = .ok (armSize P port b k) := by
  simp only [rxByteArm, h]

theorem rxByteArm_getData (h : k.ps = .getData) : rxByteArm P port b k = armData P port b k := by
  simp only [rxByteArm, h]

/-- The data arm before the last byte. -/
theorem armData_store (hi : k.rxIdx < P.rxCap) (hn : k.rxIdx ≠ k.size.toNat) :
    armData P port b k =
      .ok { block := { k with rxBuf := Memory.write k.rxBuf k.rxIdx b, rxIdx := k.rxIdx + 1 }, ev := .none, out := [] } := by
  have h : bufWrite .rxBuf P.rxCap k.rxBuf k.rxIdx b = .ok (Memory.write k.rxBuf k.rxIdx b) := bufWrite_eq_ok.2 ⟨hi, rfl⟩
  have : ¬ k.rxIdx + 1 = k.size.toNat + 1 := by omega
  simp only [armData, h, if_neg this]

/-- What the last byte of a frame leaves, `e` being the whole encoded payload. -/
def completed (P : Params) (port : Nat) (k : Block) (m : Memory) (e : List Byte) : ArmEffect :=
  match cobsDecode e with
  | none => { block := { k with rxBuf := m, rxIdx := k.rxIdx + 1, ps := .waitForStart }, ev := .dropDecode, out := [] }
  | some r =>
    { block := { k with rxBuf := m, rxIdx := k.rxIdx + 1, ps := .waitForStart }, ev := .deliver,
      out := [deliver P port k.hdr1 k.size r] }

/-- Reading the received bytes back after the last one is stored. -/
theorem read_received {e : List Byte} (hi : k.rxIdx < P.rxCap)
    (he : bufReadAll .rxBuf P.rxCap k.rxBuf (List.range k.rxIdx) = .ok e) :
    bufReadAll .rxBuf P.rxCap (Memory.write k.rxBuf k.rxIdx b) (List.range (k.rxIdx + 1)) = .ok (e ++ [b]) := by
  rw [List.range_succ]
  refine bufReadAll_append ?_ ?_
  · rw [bufReadAll_congr (m := k.rxBuf), he]
    intro i hi'
    exact Memory.read_write_other b (Nat.ne_of_lt (List.mem_range.1 hi'))
  · exact bufReadAll_cons_eq_ok.2 ⟨b, [], rfl, hi, Memory.read_write_same _ _ _, rfl⟩

/-- The data arm at the last byte. -/
theorem armData_complete {e : List Byte} (hi : k.rxIdx < P.rxCap) (hn : k.rxIdx = k.size.toNat)
    (he : bufReadAll .rxBuf P.rxCap k.rxBuf (List.range k.rxIdx) = .ok e) :
    armData P port b k = .ok (completed P port k (Memory.write k.rxBuf k.rxIdx b) (e ++ [b])) := by
  have h : bufWrite .rxBuf P.rxCap k.rxBuf k.rxIdx b = .ok (Memory.write k.rxBuf k.rxIdx b) := bufWrite_eq_ok.2 ⟨hi, rfl⟩
  have hr := read_received (b := b) hi he
  have hl : k.rxIdx + 1 = k.size.toNat + 1 := by omega
  rw [show List.range (k.rxIdx + 1) = List.range (k.size.toNat + 1) by rw [hl]] at hr
  simp only [armData, h, if_pos hl, complete, hr, completed]
  cases cobsDecode (e ++ [b]) <;> rfl

/-- Everything an arm of RX_BYTE can do when it does not fault. -/
theorem rxByteArm_cases (h : rxByteArm P port b k = .ok a) :
    (k.ps = .waitForStart ∧ a = armWait b k) ∨
    (k.ps = .getHeader ∧ a = armHeader b k) ∨
    (k.ps = .getSize ∧ a = armSize P port b k) ∨
    (k.ps = .getData ∧ k.rxIdx < P.rxCap ∧ k.rxIdx ≠ k.size.toNat ∧
      a = { block := { k with rxBuf := Memory.write k.rxBuf k.rxIdx b, rxIdx := k.rxIdx + 1 }, ev := .none, out := [] }) ∨
    (k.ps = .getData ∧ k.rxIdx < P.rxCap ∧ k.rxIdx = k.size.toNat ∧
      ∃ e, a = completed P port k (Memory.write k.rxBuf k.rxIdx b) e) := by
  unfold rxByteArm at h
  split at h
  · rename_i hp; cases h; exact .inl ⟨hp, rfl⟩
  · rename_i hp; cases h; exact .inr (.inl ⟨hp, rfl⟩)
  · rename_i hp; cases h; exact .inr (.inr (.inl ⟨hp, rfl⟩))
  · rename_i hp
    unfold armData at h
    split at h
    · cases h
    · rename_i m hm
      obtain ⟨hi, rfl⟩ := bufWrite_eq_ok.1 hm
      split at h
      · rename_i hn
        unfold complete at h
        split at h
        · cases h
        · rename_i e _
          refine .inr (.inr (.inr (.inr ⟨hp, hi, by omega, e, ?_⟩)))
          unfold completed
          revert h
          cases cobsDecode e with
          | none => intro h; cases h; rfl
          | some r => intro h; cases h; rfl
      · rename_i hn
        cases h
        exact .inr (.inr (.inr (.inl ⟨hp, hi, by omega, rfl⟩)))

/-- An arm writes nothing of the FIFO. -/
theorem rxByteArm_fifo (h : rxByteArm P port b k = .ok a) :
    a.block.txBuf = k.txBuf ∧ a.block.txHead = k.txHead ∧ a.block.txCount = k.txCount := by
  rcases rxByteArm_cases h with ⟨-, rfl⟩ | ⟨-, rfl⟩ | ⟨-, rfl⟩ | ⟨-, -, -, rfl⟩ | ⟨-, -, -, e, rfl⟩
  · unfold armWait; split <;> exact ⟨rfl, rfl, rfl⟩
  · exact ⟨rfl, rfl, rfl⟩
  · unfold armSize; split
    · exact ⟨rfl, rfl, rfl⟩
    · split <;> exact ⟨rfl, rfl, rfl⟩
  · exact ⟨rfl, rfl, rfl⟩
  · unfold completed; split <;> exact ⟨rfl, rfl, rfl⟩

/-- An arm reads nothing of the FIFO: with another FIFO it does the same to the parser, makes the same outputs, and leaves that
FIFO. -/
theorem rxByteArm_congr {k' : Block} (h : rxByteArm P port b k = .ok a) (hps : k'.ps = k.ps) (hh : k'.hdr1 = k.hdr1)
    (hs : k'.size = k.size) (hi : k'.rxIdx = k.rxIdx) (hr : k'.rxBuf = k.rxBuf) :
    rxByteArm P port b k' =
      .ok { a with block := { a.block with txBuf := k'.txBuf, txHead := k'.txHead, txCount := k'.txCount } } := by
  obtain ⟨ps, hdr1, size, rxIdx, rxBuf, txBuf, txHead, txCount⟩ := k
  obtain ⟨ps', hdr1', size', rxIdx', rxBuf', txBuf', txHead', txCount'⟩ := k'
  cases hps; cases hh; cases hs; cases hi; cases hr
  cases ps with
  | waitForStart => cases h; simp only [rxByteArm, armWait]; split <;> rfl
  | getHeader => cases h; rfl
  | getSize => cases h; simp only [rxByteArm, armSize]; split <;> [rfl; (split <;> rfl)]
  | getData =>
    revert h
    simp only [rxByteArm, armData]
    cases bufWrite .rxBuf P.rxCap rxBuf rxIdx b with
    | error r => intro h; cases h
    | ok m =>
      simp only [complete]
      split
      · cases bufReadAll .rxBuf P.rxCap m (List.range (size.toNat + 1)) with
        | error r => intro h; cases h
        | ok e =>
          simp only
          cases cobsDecode e with
          | none => intro h; cases h; rfl
          | some r => intro h; cases h; rfl
      · intro h; cases h; rfl

/-- An arm makes one delivery, or none, as its event says. -/
theorem rxByteArm_out (h : rxByteArm P port b k = .ok a) :
    (a.ev ≠ .deliver ∧ a.out = []) ∨ (a.ev = .deliver ∧ ∃ hd sz r, a.out = [deliver P port hd sz r]) := by
  rcases rxByteArm_cases h with ⟨-, rfl⟩ | ⟨-, rfl⟩ | ⟨-, rfl⟩ | ⟨-, -, -, rfl⟩ | ⟨-, -, -, e, rfl⟩
  · unfold armWait; split <;> exact .inl ⟨nofun, rfl⟩
  · exact .inl ⟨by simp [armHeader], rfl⟩
  · unfold armSize; split
    · exact .inl ⟨nofun, rfl⟩
    · split
      · exact .inr ⟨rfl, _, _, _, rfl⟩
      · exact .inl ⟨nofun, rfl⟩
  · exact .inl ⟨by simp, rfl⟩
  · unfold completed; split
    · exact .inl ⟨by simp, rfl⟩
    · exact .inr ⟨rfl, _, _, _, rfl⟩

theorem rxByteEffect_eq_ok {e : Effect} :
    rxByteEffect P port b k = .ok e ↔
      ∃ a, rxByteArm P port b k = .ok a ∧
        e = { block := a.block, out := a.out ++ [.response [StatusCode.ok.toByte, a.ev.toByte]] } := by
  unfold rxByteEffect
  cases rxByteArm P port b k <;> simp [eq_comm]

/-- From the invariant an arm does not fault. -/
theorem rxByteArm_total (h : k.Inv P) : ∃ a, rxByteArm P port b k = .ok a := by
  unfold rxByteArm
  split
  · exact ⟨_, rfl⟩
  · exact ⟨_, rfl⟩
  · exact ⟨_, rfl⟩
  · rename_i hp
    obtain ⟨-, -, h3, h4⟩ := h.getData hp
    obtain ⟨e, he⟩ := h.received hp
    by_cases hn : k.rxIdx = k.size.toNat
    · exact ⟨_, armData_complete (by omega) hn he⟩
    · exact ⟨_, armData_store (by omega) hn⟩

theorem Block.queue_congr {k' : Block} (h1 : k'.txBuf = k.txBuf) (h2 : k'.txHead = k.txHead) (h3 : k'.txCount = k.txCount) :
    k'.queue P = k.queue P := by
  unfold Block.queue; rw [h1, h2, h3]

/-- An arm keeps the invariant of its instance. -/
theorem rxByteArm_keeps (hk : k.Inv P) (h : rxByteArm P port b k = .ok a) : a.block.Inv P := by
  obtain ⟨f1, f2, f3⟩ := rxByteArm_fifo h
  have hq : ∃ q, a.block.queue P = .ok q ∧ IsFrameStream q := by rw [Block.queue_congr f1 f2 f3]; exact hk.queue
  have h1 : a.block.txHead < P.txCap := f2 ▸ hk.head_lt
  have h2 : a.block.txCount ≤ P.txCap := f3 ▸ hk.count_le
  have h3 : Memory.wf a.block.txBuf = true ∧ Memory.inside P.txCap a.block.txBuf = true := f1 ▸ hk.tx_wf
  have hw : k.rxIdx < P.rxCap → Memory.wf (Memory.write k.rxBuf k.rxIdx b) = true ∧
      Memory.inside P.rxCap (Memory.write k.rxBuf k.rxIdx b) = true := fun hi =>
    ⟨Memory.wf_write _ _ hk.rx_wf.1, Memory.inside_write _ hk.rx_wf.2 hi⟩
  rcases rxByteArm_cases h with ⟨hp, rfl⟩ | ⟨hp, rfl⟩ | ⟨hp, rfl⟩ | ⟨hp, hi, hn, rfl⟩ | ⟨hp, hi, hn, e, rfl⟩
  · revert hq h1 h2 h3
    unfold armWait; split
    · intro hq h1 h2 h3
      exact ⟨h1, h2, fun h => by simp at h, hq, fun h => by simp at h, hk.rxIdx_le, hk.rx_wf, h3⟩
    · intro _ _ _ _; exact hk
  · exact ⟨h1, h2, fun h => by simp [armHeader] at h, hq, fun h => by simp [armHeader] at h, hk.rxIdx_le, hk.rx_wf, h3⟩
  · revert hq h1 h2 h3
    unfold armSize; split
    · intro hq h1 h2 h3
      exact ⟨h1, h2, fun h => by simp at h, hq, fun h => by simp at h, hk.rxIdx_le, hk.rx_wf, h3⟩
    · rename_i hs
      split
      · intro hq h1 h2 h3
        exact ⟨h1, h2, fun h => by simp at h, hq, fun h => by simp at h, hk.rxIdx_le, hk.rx_wf, h3⟩
      · rename_i h0
        intro hq h1 h2 h3
        have := b.isLt
        have hb : 1 ≤ b.toNat ∧ b.toNat ≤ 254 ∧ b.toNat + 1 ≤ P.rxCap := by omega
        exact ⟨h1, h2, fun _ => ⟨hb.1, hb.2.1, hb.2.2, Nat.zero_le _⟩, hq, fun _ => ⟨[], rfl⟩, Nat.zero_le _,
          hk.rx_wf, h3⟩
  · obtain ⟨g1, g2, g3, g4⟩ := hk.getData hp
    obtain ⟨e, he⟩ := hk.received hp
    refine ⟨h1, h2, fun _ => ⟨g1, g2, g3, ?_⟩, hq, fun _ => ⟨e ++ [b], read_received hi he⟩, ?_, hw hi, h3⟩
    · show k.rxIdx + 1 ≤ k.size.toNat
      omega
    · show k.rxIdx + 1 ≤ 255
      omega
  · obtain ⟨g1, g2, g3, g4⟩ := hk.getData hp
    revert hq h1 h2 h3
    unfold completed; split <;> intro hq h1 h2 h3 <;>
      exact ⟨h1, h2, fun h => by simp at h, hq, fun h => by simp at h, show k.rxIdx + 1 ≤ 255 by omega, hw hi, h3⟩

/-- RX_RESET keeps the invariant of its instance. -/
theorem rxResetBlock_keeps (hk : k.Inv P) : (rxResetBlock k).Inv P :=
  ⟨hk.head_lt, hk.count_le, fun h => by simp at h, hk.queue, fun h => by simp at h, Nat.zero_le _, hk.rx_wf, hk.tx_wf⟩

end Sys2Proof.Machine
end

