-- ==== Sys2Proof/Laws/PerInstr.lean ====
section
/-! SUPPORT. The family of R84: the packet of each command has the length that its opcode and its length operand fix. -/

namespace Sys2Proof.Laws.PacketLength

/-- The length R84 reads from a command's packet is the packet's length. -/
def Statement (i : Instr) : Prop := i.wf = true → packetLength (encode i) = some (encode i).length

theorem enc (n : Byte) (p : List Byte) : Statement (.enc n p) := by
  intro h
  have hl : p.length = n.toNat := by simpa [Instr.wf] using h
  simp [encode, packetLength, Opcode.toByte, Opcode.ofByte, hl]
  omega

theorem dec (m : Byte) (e : List Byte) : Statement (.dec m e) := by
  intro h
  have hl : e.length = m.toNat := by simpa [Instr.wf] using h
  simp [encode, packetLength, Opcode.toByte, Opcode.ofByte, hl]
  omega

theorem rxByte (b : Byte) : Statement (.rxByte b) := fun _ => rfl

theorem rxReset : Statement .rxReset := fun _ => rfl

theorem txPut (hdr1 size : Byte) (p : List Byte) : Statement (.txPut hdr1 size p) := by
  intro h
  have hl : p.length = size.toNat := by simpa [Instr.wf] using h
  simp [encode, packetLength, Opcode.toByte, Opcode.ofByte, hl]
  omega

theorem txSend : Statement .txSend := fun _ => rfl

theorem status : Statement .status := fun _ => rfl

end Sys2Proof.Laws.PacketLength
end

