-- ==== Sys2Proof/Laws/TxFifo.lean ====
section
/-! SUPPORT. Everything TX_PUT and TX_SEND can do, once: their outcomes, what each leaves of the queue, and that they keep the
invariant of their instance. -/

namespace Sys2Proof.Machine

variable {P : Params} {k : Block} {h size : Byte} {p Q : List Byte} {A : Nat} {e : Effect}

/-! ### Frames -/

theorem length_frame (hp : p.length = size.toNat) : (frame h size p).length = frameLen size.toNat := by
  unfold frame frameLen
  by_cases hs : size = 0x00
  · subst hs; simp
  · have : size.toNat ≠ 0 := fun h0 => hs (BitVec.eq_of_toNat_eq (by simpa using h0))
    rw [if_neg hs, if_neg this]
    simp [cobsEncode_length, hp]

theorem frame_length_pos : 3 ≤ (frame h size p).length := by
  unfold frame; split <;> simp

theorem isFrameStream_nil : IsFrameStream [] :=
  ⟨[], [], rfl, ⟨frame 0 0 [], ⟨0, 0, [], by decide, rfl, rfl⟩, List.nil_suffix⟩, by simp⟩

/-- A frame queued behind a stream. -/
theorem IsFrameStream.append {q f : List Byte} (hq : IsFrameStream q) (hf : IsFrame f) : IsFrameStream (q ++ f) := by
  obtain ⟨tl, fs, rfl, ht, hfs⟩ := hq
  refine ⟨tl, fs ++ [f], by simp, ht, ?_⟩
  intro g hg
  rcases List.mem_append.1 hg with hg | hg
  · exact hfs g hg
  · rw [List.mem_singleton.1 hg]; exact hf

/-- What is left of a stream after bytes of its front are taken. -/
theorem IsFrameStream.drop {q : List Byte} (n : Nat) (hq : IsFrameStream q) : IsFrameStream (q.drop n) := by
  obtain ⟨tl, fs, rfl, ht, hfs⟩ := hq
  induction fs generalizing tl n with
  | nil =>
    obtain ⟨f, hf, hs⟩ := ht
    exact ⟨tl.drop n, [], by simp, ⟨f, hf, (List.drop_suffix n tl).trans hs⟩, by simp⟩
  | cons g fs ih =>
    by_cases hn : n ≤ tl.length
    · obtain ⟨f, hf, hs⟩ := ht
      exact ⟨tl.drop n, g :: fs, List.drop_append_of_le_length hn, ⟨f, hf, (List.drop_suffix n tl).trans hs⟩, hfs⟩
    · have hd : List.drop n (tl ++ (g :: fs).flatten) = List.drop (n - tl.length) (g ++ fs.flatten) := by
        rw [List.drop_append, List.drop_eq_nil_of_le (by omega)]
        simp
      rw [hd]
      exact ih (n - tl.length) g ⟨g, hfs g (by simp), List.suffix_rfl⟩ fun x hx => hfs x (by simp [hx])

/-! ### TX_PUT -/

/-- The pairs TX_PUT writes: the frame at the ring places from the tail on. -/
def putPairs (P : Params) (k : Block) (f : List Byte) : List (Nat × Byte) :=
  (ringIndices P.txCap (k.txHead + k.txCount) f.length).zip f

/-- The instance after a frame is queued. -/
def queued (P : Params) (k : Block) (f : List Byte) : Block :=
  { k with txBuf := writeAll k.txBuf (putPairs P k f), txCount := k.txCount + f.length }

theorem putPairs_lt {f : List Byte} (hc : 0 < P.txCap) : ∀ c ∈ putPairs P k f, c.1 < P.txCap := by
  intro c hm
  exact ringIndices_lt hc _ (List.of_mem_zip hm).1

theorem txPutEffect_errLen (hs : size.toNat = 255) :
    txPutEffect P h size p k = .ok (k.answer [StatusCode.errLen.toByte]) := by
  simp only [txPutEffect, if_pos hs]

theorem txPutEffect_errFull (hs : size.toNat ≠ 255) (hf : P.txCap - k.txCount < (frame h size p).length) :
    txPutEffect P h size p k = .ok (k.answer [StatusCode.errFull.toByte]) := by
  simp only [txPutEffect, if_neg hs, if_pos hf]

theorem txPutEffect_ok (hs : size.toNat ≠ 255) (hf : (frame h size p).length ≤ P.txCap - k.txCount) :
    txPutEffect P h size p k = .ok ((queued P k (frame h size p)).answer [StatusCode.ok.toByte]) := by
  have hl : 3 ≤ (frame h size p).length := frame_length_pos
  have hc : 0 < P.txCap := by omega
  have hw := bufWriteAll_eq_ok (buf := .txBuf) (m := k.txBuf) (putPairs_lt (k := k) (f := frame h size p) hc)
  unfold putPairs at hw
  simp only [txPutEffect, if_neg hs, if_neg (Nat.not_lt.2 hf), hw, queued, putPairs]

/-- TX_PUT has one of three outcomes, and never faults. -/
theorem txPutEffect_cases (P : Params) (h size : Byte) (p : List Byte) (k : Block) :
    (size.toNat = 255 ∧ txPutEffect P h size p k = .ok (k.answer [StatusCode.errLen.toByte])) ∨
    (size.toNat ≠ 255 ∧ P.txCap - k.txCount < (frame h size p).length ∧
      txPutEffect P h size p k = .ok (k.answer [StatusCode.errFull.toByte])) ∨
    (size.toNat ≠ 255 ∧ (frame h size p).length ≤ P.txCap - k.txCount ∧
      txPutEffect P h size p k = .ok ((queued P k (frame h size p)).answer [StatusCode.ok.toByte])) := by
  by_cases hs : size.toNat = 255
  · exact .inl ⟨hs, txPutEffect_errLen hs⟩
  · by_cases hf : P.txCap - k.txCount < (frame h size p).length
    · exact .inr (.inl ⟨hs, hf, txPutEffect_errFull hs hf⟩)
    · exact .inr (.inr ⟨hs, Nat.not_lt.1 hf, txPutEffect_ok hs (Nat.not_lt.1 hf)⟩)

/-- The ring places of the queue and those behind it are different bytes. -/
theorem queue_place_ne {f : List Byte} (hf : f.length ≤ P.txCap - k.txCount) :
    ∀ i ∈ ringIndices P.txCap k.txHead k.txCount, ∀ c ∈ putPairs P k f, c.1 ≠ i := by
  intro i hi c hc he
  obtain ⟨a, ha, rfl⟩ := mem_ringIndices.1 hi
  obtain ⟨b, hb, hbe⟩ := mem_ringIndices.1 (List.of_mem_zip hc).1
  rw [← hbe, Nat.add_assoc] at he
  exact ring_inj (show a < k.txCount + b by omega) (by omega) he.symm

/-- The queue after a frame is queued. -/
theorem queued_queue {f : List Byte} (hf : f.length ≤ P.txCap - k.txCount) (hc : 0 < P.txCap)
    (hQ : k.queue P = .ok Q) : (queued P k f).queue P = .ok (Q ++ f) := by
  unfold Block.queue queued at *
  simp only [ringIndices_add]
  refine bufReadAll_append ?_ ?_
  · rw [bufReadAll_congr (m := k.txBuf), hQ]
    intro i hi
    exact read_writeAll_other (queue_place_ne hf i hi)
  · rw [bufReadAll_eq_ok_iff]
    exact ⟨ringIndices_lt hc, map_read_writeAll_zip (ringIndices_nodup (by omega)) (by simp)⟩

theorem queued_keeps {f : List Byte} (hk : k.Inv P) (hf : f.length ≤ P.txCap - k.txCount) (hF : IsFrame f) :
    (queued P k f).Inv P := by
  have hc : 0 < P.txCap := Nat.lt_of_le_of_lt (Nat.zero_le _) hk.head_lt
  obtain ⟨q, hq, hs⟩ := hk.queue
  have hle := hk.count_le
  refine ⟨hk.head_lt, ?_, hk.getData, ⟨q ++ f, queued_queue hf hc hq, hs.append hF⟩, hk.received, hk.rxIdx_le,
    hk.rx_wf, writeAll_wf hk.tx_wf.1, writeAll_inside hk.tx_wf.2 (putPairs_lt hc)⟩
  show k.txCount + f.length ≤ P.txCap
  omega

theorem isFrame_frame (hs : size.toNat ≠ 255) (hp : p.length = size.toNat) : IsFrame (frame h size p) :=
  ⟨h, size, p, by have := size.isLt; omega, hp, rfl⟩

/-- TX_PUT keeps the invariant of its instance. -/
theorem txPutEffect_keeps (hk : k.Inv P) (hp : p.length = size.toNat) (he : txPutEffect P h size p k = .ok e) :
    e.block.Inv P := by
  rcases txPutEffect_cases P h size p k with ⟨-, ho⟩ | ⟨-, -, ho⟩ | ⟨hs, hf, ho⟩
  · rw [ho] at he; cases he; exact hk
  · rw [ho] at he; cases he; exact hk
  · rw [ho] at he; cases he; exact queued_keeps hk hf (isFrame_frame hs hp)

/-! ### TX_SEND -/

/-- The instance after `n` bytes are taken from the queue. -/
def dequeued (P : Params) (k : Block) (n : Nat) : Block :=
  { k with txHead := (k.txHead + n) % P.txCap, txCount := k.txCount - n }

/-- The status and the count of TX_SEND. -/
def sendResponse (k : Block) (n : Nat) : List Byte :=
  (if k.txCount - n = 0 then StatusCode.ok.toByte else StatusCode.pending.toByte) :: u16le n

theorem queue_length (hQ : k.queue P = .ok Q) : Q.length = k.txCount := by
  simpa using bufReadAll_length hQ

theorem queue_split {n : Nat} (hQ : k.queue P = .ok Q) (hn : n ≤ k.txCount) :
    bufReadAll .txBuf P.txCap k.txBuf (ringIndices P.txCap k.txHead n) = .ok (Q.take n) ∧
    bufReadAll .txBuf P.txCap k.txBuf (ringIndices P.txCap (k.txHead + n) (k.txCount - n)) = .ok (Q.drop n) := by
  unfold Block.queue at hQ
  rw [show k.txCount = n + (k.txCount - n) by omega, ringIndices_add] at hQ
  have h := bufReadAll_append_inv hQ
  simpa using h

/-- TX_SEND from a written queue. -/
theorem txSendEffect_ok (hQ : k.queue P = .ok Q) :
    txSendEffect P A k = .ok
      { block := dequeued P k (min A k.txCount)
        out := (Q.take (min A k.txCount)).map .tx ++ [.response (sendResponse k (min A k.txCount))] } := by
  simp only [txSendEffect, (queue_split hQ (Nat.min_le_right A k.txCount)).1, dequeued, sendResponse]

/-- The queue after TX_SEND. -/
theorem dequeued_queue {n : Nat} (hQ : k.queue P = .ok Q) (hn : n ≤ k.txCount) :
    (dequeued P k n).queue P = .ok (Q.drop n) := by
  unfold Block.queue dequeued
  simp only [ringIndices_mod]
  exact (queue_split hQ hn).2

/-- Taking bytes from the queue keeps the invariant of the instance. -/
theorem dequeued_keeps {n : Nat} (hk : k.Inv P) (hn : n ≤ k.txCount) : (dequeued P k n).Inv P := by
  obtain ⟨q, hq, hs⟩ := hk.queue
  have hc : 0 < P.txCap := Nat.lt_of_le_of_lt (Nat.zero_le _) hk.head_lt
  exact ⟨Nat.mod_lt _ hc, le_trans (Nat.sub_le _ _) hk.count_le, hk.getData, ⟨q.drop n, dequeued_queue hq hn, hs.drop n⟩,
    hk.received, hk.rxIdx_le, hk.rx_wf, hk.tx_wf⟩

/-- TX_SEND keeps the invariant of its instance. -/
theorem txSendEffect_keeps (hk : k.Inv P) (he : txSendEffect P A k = .ok e) : e.block.Inv P := by
  obtain ⟨q, hq, -⟩ := hk.queue
  rw [txSendEffect_ok hq] at he
  cases he
  exact dequeued_keeps hk (Nat.min_le_right _ _)

/-- Everything TX_SEND can do when it does not fault. -/
theorem txSendEffect_eq_ok (he : txSendEffect P A k = .ok e) :
    ∃ bs, bufReadAll .txBuf P.txCap k.txBuf (ringIndices P.txCap k.txHead (min A k.txCount)) = .ok bs ∧
      e = { block := dequeued P k (min A k.txCount)
            out := bs.map .tx ++ [.response (sendResponse k (min A k.txCount))] } := by
  unfold txSendEffect at he
  split at he
  · cases he
  · rename_i bs hbs
    cases he
    exact ⟨bs, hbs, rfl⟩

end Sys2Proof.Machine
end

