-- ==== Sys2Proof/Laws/Step.lean ====
section
/-! SUPPORT. Everything a command and a step can do, once. -/

namespace Sys2Proof.Machine

/-- What a command does to its instance, as a function of the instance, the parameters, the instance's number and the transport's
offer alone. -/
def effectOf (P : Params) (port accept : Nat) : Instr → Block → Except Fault Effect
  | .enc n p, k => .ok (k.answer (encResponse n p))
  | .dec m e, k => .ok (k.answer (decResponse m e))
  | .rxByte b, k => rxByteEffect P port b k
  | .rxReset, k => .ok ((rxResetBlock k).answer [StatusCode.ok.toByte])
  | .txPut h size p, k => txPutEffect P h size p k
  | .txSend, k => txSendEffect P accept k
  | .status, k => .ok (k.answer (statusResponse P k))

theorem exec_eq_onPort (i : Instr) (s : State) : exec i s = s.onPort (effectOf s.params s.port s.accept i) := by
  cases i <;> rfl

/-- Everything a command can do when it answers next. -/
theorem exec_eq_next {i : Instr} {s t : State} :
    exec i s = .next t ↔
      ∃ q e, s.ports[s.port]? = some q ∧ effectOf s.params s.port s.accept i q.block = .ok e ∧
        t = s.putPort ⟨e.block, q.out ++ e.out⟩ := by
  rw [exec_eq_onPort, onPort_eq_next]

/-- From the invariant a command does not fault. -/
theorem effectOf_total {P : Params} {port A : Nat} {k : Block} (hk : k.Inv P) (i : Instr) :
    ∃ e, effectOf P port A i k = .ok e := by
  cases i with
  | enc n p => exact ⟨_, rfl⟩
  | dec m e => exact ⟨_, rfl⟩
  | rxByte b =>
    obtain ⟨a, ha⟩ := rxByteArm_total (port := port) (b := b) hk
    exact ⟨_, rxByteEffect_eq_ok.2 ⟨a, ha, rfl⟩⟩
  | rxReset => exact ⟨_, rfl⟩
  | txPut h size p =>
    rcases txPutEffect_cases P h size p k with ⟨-, ho⟩ | ⟨-, -, ho⟩ | ⟨-, -, ho⟩ <;> exact ⟨_, ho⟩
  | txSend =>
    obtain ⟨q, hq, -⟩ := hk.queue
    exact ⟨_, txSendEffect_ok hq⟩
  | status => exact ⟨_, rfl⟩

/-- A well-formed command keeps the invariant of its instance. -/
theorem effectOf_keeps {P : Params} {port A : Nat} {k : Block} {i : Instr} {e : Effect} (hk : k.Inv P) (hi : i.wf = true)
    (he : effectOf P port A i k = .ok e) : e.block.Inv P := by
  cases i with
  | enc n p => cases he; exact hk
  | dec m b => cases he; exact hk
  | rxByte b =>
    obtain ⟨a, ha, rfl⟩ := rxByteEffect_eq_ok.1 he
    exact rxByteArm_keeps hk ha
  | rxReset => cases he; exact rxResetBlock_keeps hk
  | txPut h size p => exact txPutEffect_keeps hk (by simpa [Instr.wf] using hi) he
  | txSend => exact txSendEffect_keeps hk he
  | status => cases he; exact hk

/-- The selected instance after a command. -/
theorem putPort_self {s : State} {q p : Port} (hq : s.ports[s.port]? = some q) :
    (s.putPort p).ports[s.port]? = some p := by
  have : s.port < s.ports.length := (List.getElem?_eq_some_iff.1 hq).1
  simp [this]

theorem putPort_other {s : State} {p : Port} {n : Nat} (h : n ≠ s.port) : (s.putPort p).ports[n]? = s.ports[n]? := by
  simp [List.getElem?_set_ne h.symm]

/-- An instance in place of another keeps the machine's invariant when it meets its own. -/
theorem putPort_keeps {s : State} {p : Port} (hs : s.Inv) (hp : p.block.Inv s.params) : (s.putPort p).Inv := by
  refine ⟨hs.params, by simpa using hs.ports, ?_⟩
  intro q hq
  rcases List.mem_or_eq_of_mem_set hq with hq | rfl
  · exact hs.blocks q hq
  · exact hp

theorem Inv.of_ports {s t : State} (hs : s.Inv) (h1 : t.params = s.params) (h2 : t.ports = s.ports) : t.Inv :=
  ⟨h1 ▸ hs.params, by rw [h1, h2]; exact hs.ports, by rw [h1, h2]; exact hs.blocks⟩

theorem blockInv_of_port {s : State} {n : Nat} {q : Port} (hs : s.Inv) (hq : s.ports[n]? = some q) :
    q.block.Inv s.params := hs.blocks q (List.mem_of_getElem? hq)

theorem blockReset_inv {P : Params} (hP : P.wf = true) : Block.reset.Inv P := by
  simp only [Params.wf, Bool.and_eq_true, decide_eq_true_eq] at hP
  exact ⟨by show 0 < P.txCap; omega, Nat.zero_le _, nofun, ⟨[], rfl, isFrameStream_nil⟩, nofun, Nat.zero_le _,
    ⟨rfl, rfl⟩, ⟨rfl, rfl⟩⟩

/-- What the fetch finds leaves the parameters and the instances alone, and gives only well-formed commands. -/
theorem fetch_run {s t : State} {i : Instr} (h : fetch s = .run i t) :
    i.wf = true ∧ ∃ n packet a rest, s.inputs = .command n packet a :: rest ∧ s.resetSeen = true ∧
      decodePacket packet = .ok (.instr i) ∧ t = (s.withInputs rest).select n a := by
  unfold fetch at h
  split at h
  · cases h
  · rename_i n packet a rest hin
    unfold fetchCommand at h
    split at h
    · rename_i hr
      split at h
      · cases h
      · rename_i j hd
        cases h
        exact ⟨(decodePacket_cases hd).2, n, packet, a, rest, hin, hr, hd, rfl⟩
      · cases h
    · cases h
  · cases h
  · cases h
  · cases h

theorem fetch_illegal {s t : State} {op : Byte} (h : fetch s = .illegal op t) :
    ∃ n packet a rest, s.inputs = .command n packet a :: rest ∧ s.resetSeen = true ∧
      decodePacket packet = .ok (.illegal op) ∧ t = (s.withInputs rest).select n a := by
  unfold fetch at h
  split at h
  · cases h
  · rename_i n packet a rest hin
    unfold fetchCommand at h
    split at h
    · rename_i hr
      split at h
      · cases h
      · cases h
      · rename_i j hd
        cases h
        exact ⟨n, packet, a, rest, hin, hr, hd, rfl⟩
    · cases h
  · cases h
  · cases h
  · cases h

theorem fetch_reset {s t : State} (h : fetch s = .reset t) :
    ∃ rest, t = s.withInputs rest ∧ (s.inputs = .reset :: rest ∨ ∃ n packet, s.inputs = .resetDuring n packet :: rest) := by
  unfold fetch at h
  split at h
  · cases h
  · unfold fetchCommand at h
    split at h
    · split at h <;> cases h
    · cases h
  · rename_i rest hin
    cases h
    exact ⟨rest, rfl, .inl hin⟩
  · rename_i n packet rest hin
    cases h
    exact ⟨rest, rfl, .inr ⟨n, packet, hin⟩⟩
  · cases h

/-- Everything a step can do when it answers next. -/
theorem step_cases {s t : State} (h : step s = .next t) :
    (fetch s = .idle ∧ t = s) ∨
    (∃ u, fetch s = .reset u ∧ t = u.resetAll) ∨
    (∃ i u, fetch s = .run i u ∧ exec i u = .next t) ∨
    (∃ op u, fetch s = .illegal op u ∧ execIllegal op u = .next t) := by
  unfold step at h
  split at h
  · rename_i hf; cases h; exact .inl ⟨hf, rfl⟩
  · rename_i u hf; cases h; exact .inr (.inl ⟨u, hf, rfl⟩)
  · rename_i i u hf; exact .inr (.inr (.inl ⟨i, u, hf, h⟩))
  · rename_i op u hf; exact .inr (.inr (.inr ⟨op, u, hf, h⟩))
  · cases h

/-- A run's first step. -/
theorem run_succ_eq_next {n : Nat} {s t : State} :
    Host.Core.run Sys2Proof.core (n + 1) s = .next t ↔ ∃ u, step s = .next u ∧ Host.Core.run Sys2Proof.core n u = .next t := by
  have hc : Sys2Proof.core.step s = step s := rfl
  simp only [Host.Core.run]
  generalize step s = o at hc
  constructor
  · intro h
    split at h
    · rename_i u hu; exact ⟨u, hc.symm.trans hu, h⟩
    · cases h
    · cases h
  · rintro ⟨u, rfl, h⟩
    rw [hc]
    exact h

theorem run_succ_eq_fault {n : Nat} {s : State} {r : Fault} :
    Host.Core.run Sys2Proof.core (n + 1) s = .fault r ↔
      step s = .fault r ∨ ∃ u, step s = .next u ∧ Host.Core.run Sys2Proof.core n u = .fault r := by
  have hc : Sys2Proof.core.step s = step s := rfl
  simp only [Host.Core.run]
  generalize step s = o at hc
  constructor
  · intro h
    split at h
    · rename_i u hu; exact .inr ⟨u, hc.symm.trans hu, h⟩
    · rename_i r' hr; cases h; exact .inl (hc.symm.trans hr)
    · cases h
  · rintro (rfl | ⟨u, rfl, h⟩)
    · rw [hc]
    · rw [hc]
      exact h

end Sys2Proof.Machine
end

