-- ==== Sys2Proof/Tests/Slice0.lean ====
section
/-! SUPPORT. Small tests. Every expected result is the spec's: the packets of R72 written out by hand, the examples of the
rules, and the vectors T-E, T-D, T-P, T-Q, T-C of spec/95_test_vectors.md. Then, for each statement with hypotheses, a witness that
meets them. -/

namespace Sys2Proof.Machine.Tests

/-! ### WellFormed: each check refuses an ill-formed term (R72) -/

theorem test_wf_refuses_enc_short : Instr.wf (.enc 0x02 [0x11]) = false := by decide
theorem test_wf_refuses_enc_long : Instr.wf (.enc 0x00 [0x11]) = false := by decide
theorem test_wf_refuses_dec_short : Instr.wf (.dec 0x03 [0x03, 0x11]) = false := by decide
theorem test_wf_refuses_txPut_long : Instr.wf (.txPut 0x12 0x01 [0x11, 0x22]) = false := by decide
theorem test_wf_admits_out_of_range_operand : Instr.wf (.enc 0x00 []) = true := by decide
theorem test_wf_refuses_assigned_opcode_as_illegal : Command.wf (.illegal 0x21) = false := by decide

/-! ### Decoding: packets written out from the table of R72 -/

theorem test_decode_enc :
    decodePacket [0x01, 0x04, 0x11, 0x22, 0x00, 0x33] = .ok (.instr (.enc 0x04 [0x11, 0x22, 0x00, 0x33])) := by decide
theorem test_decode_enc_empty : decodePacket [0x01, 0x00] = .ok (.instr (.enc 0x00 [])) := by decide
theorem test_decode_dec : decodePacket [0x02, 0x02, 0x01, 0x01] = .ok (.instr (.dec 0x02 [0x01, 0x01])) := by decide
theorem test_decode_rxByte : decodePacket [0x10, 0x73] = .ok (.instr (.rxByte 0x73)) := by decide
theorem test_decode_rxReset : decodePacket [0x11] = .ok (.instr .rxReset) := by decide
theorem test_decode_txPut :
    decodePacket [0x20, 0x12, 0x02, 0xAA, 0xBB] = .ok (.instr (.txPut 0x12 0x02 [0xAA, 0xBB])) := by decide
theorem test_decode_txSend : decodePacket [0x21] = .ok (.instr .txSend) := by decide
theorem test_decode_status : decodePacket [0x30] = .ok (.instr .status) := by decide
/-- T-C4, T-C5, and 0xFF (R201). -/
theorem test_decode_unassigned :
    [[0x00], [0x12], [0xFF]].map decodePacket =
      [.ok (.illegal 0x00), .ok (.illegal 0x12), .ok (.illegal 0xFF)] := by decide
/-- I8's example: TX_PUT with fewer than `size` payload bytes. -/
theorem test_decode_truncated : decodePacket [0x20, 0x12, 0x02, 0xAA] = .error .truncated := by decide
theorem test_decode_overlong : decodePacket [0x11, 0x00] = .error .overlong := by decide
theorem test_decode_leaves_the_rest : decode [0x10, 0x73, 0x30] = .ok (.instr (.rxByte 0x73), [0x30]) := by decide
theorem test_encode_txPut : encode (.txPut 0x12 0x01 [0xAA]) = [0x20, 0x12, 0x01, 0xAA] := by decide
/-- The table numbers byte 0 as bits 7..0. -/
theorem test_table_word_rxByte : decodeTableWord 16 0x7310 = some (.rxByte 0x73) := by decide
theorem test_table_word_enc_zero_operands : decodeTableWord 8 0x01 = some (.enc 0x00 []) := by decide
theorem test_table_word_unassigned : decodeTableWord 8 0x7F = none := by decide

/-! ### One step on a small state -/

/-- One instance holding `k`, nothing emitted, its transport offering `accept`. -/
def one (P : Params) (accept : Nat) (k : Block) : State :=
  { params := P, ports := [{ block := k, out := [] }], inputs := [], port := 0, accept := accept, resetSeen := true }

/-- A small instance: `rxCap` 4, the rest as at reset. -/
def small : Params := { Params.default with rxCap := 4 }

/-- What a step answers, with the instance's state and what has left it. -/
def seen : Host.Outcome State Fault Refusal → Option (Block × List Output)
  | .next t => t.ports[0]?.map fun p => (p.block, p.out)
  | .fault _ => none
  | .refused _ => none

/-- The refusal a step ends in. -/
def refusal : Host.Outcome State Fault Refusal → Option Refusal
  | .next _ => none
  | .fault _ => none
  | .refused r => some r

/-- T-E: the example of R102. -/
theorem test_enc_example :
    seen (exec (.enc 0x04 [0x11, 0x22, 0x00, 0x33]) State.reset) =
      some (Block.reset, [.response [0x00, 0x05, 0x03, 0x11, 0x22, 0x02, 0x33]]) := by decide
/-- R102: `n = 0` is ERR_LEN. -/
theorem test_enc_length_zero :
    seen (exec (.enc 0x00 []) State.reset) = some (Block.reset, [.response [0x01, 0x00]]) := by decide
/-- T-D11: two zeros at the end. -/
theorem test_dec_trailing_zeros :
    seen (exec (.dec 0x04 [0x02, 0x11, 0x01, 0x01]) State.reset) =
      some (Block.reset, [.response [0x00, 0x03, 0x11, 0x00, 0x00]]) := by decide
/-- T-D10: the second group runs past the end. -/
theorem test_dec_second_group_overruns :
    seen (exec (.dec 0x02 [0x01, 0xFF]) State.reset) = some (Block.reset, [.response [0x02, 0x00]]) := by decide

/-- T-P5: with `RX_CAP = 4` the size byte 4 is dropped, and stays in `size`. -/
theorem test_rxByte_drops_size_over_capacity :
    seen (exec (.rxByte 0x04) (one small 0 { Block.reset with ps := .getSize, hdr1 := 0x12 })) =
      some ({ Block.reset with hdr1 := 0x12, size := 0x04 }, [.response [0x00, 0x02]]) := by decide
/-- T-P16: the last byte of T-P1 with `HDR1_LAYOUT = IFACE_LOW`. -/
theorem test_rxByte_delivers_iface_low :
    seen (exec (.rxByte 0x33) (one { Params.default with hdr1Layout := .ifaceLow } 0
      { Block.reset with ps := .getData, hdr1 := 0x12, size := 0x04, rxIdx := 4
                         rxBuf := [(0, 0x03), (1, 0x11), (2, 0x22), (3, 0x02)] })) =
      some ({ Block.reset with hdr1 := 0x12, size := 0x04, rxIdx := 5
                               rxBuf := [(0, 0x03), (1, 0x11), (2, 0x22), (3, 0x02), (4, 0x33)] },
        [.delivery { port := 0, hdr1 := 0x12, iface := 2, id := 1, size := 0x04, payload := [0x11, 0x22, 0x00, 0x33] },
         .response [0x00, 0x01]]) := by decide
/-- T-P14's last command. -/
theorem test_rxReset_keeps_buffers :
    seen (exec .rxReset (one small 0 { ps := .getData, hdr1 := 0x12, size := 0x02, rxIdx := 1, rxBuf := [(0, 0x03)]
                                       txBuf := [(0, 0x73)], txHead := 1, txCount := 0 })) =
      some ({ Block.reset with rxBuf := [(0, 0x03)], txBuf := [(0, 0x73)], txHead := 1 }, [.response [0x00]]) := by decide
/-- T-Q5: the frame wraps to index 0. -/
theorem test_txPut_wraps :
    seen (exec (.txPut 0x05 0x00 []) (one Params.default 0 { Block.reset with txHead := 5, txCount := 11 })) =
      some ({ Block.reset with txBuf := [(0, 0x73), (1, 0x05), (2, 0x00)], txHead := 5, txCount := 14 },
        [.response [0x00]]) := by decide
/-- T-Q3: a full queue is left as it is. -/
theorem test_txPut_full :
    seen (exec (.txPut 0x05 0x00 []) (one Params.default 0 { Block.reset with txCount := 16 })) =
      some ({ Block.reset with txCount := 16 }, [.response [0x03]]) := by decide
/-- A send across the end of the ring, in queue order (R172, D19). -/
theorem test_txSend_wraps :
    seen (exec .txSend (one Params.default 2
      { Block.reset with txBuf := [(0, 0x05), (1, 0x00), (15, 0x73)], txHead := 15, txCount := 3 })) =
      some ({ Block.reset with txBuf := [(0, 0x05), (1, 0x00), (15, 0x73)], txHead := 1, txCount := 1 },
        [.tx 0x73, .tx 0x05, .response [0x04, 0x02, 0x00]]) := by decide
/-- T-Q7: a send from an empty queue is OK. -/
theorem test_txSend_empty :
    seen (exec .txSend (one Params.default 7 { Block.reset with txHead := 3 })) =
      some ({ Block.reset with txHead := 3 }, [.response [0x00, 0x00, 0x00]]) := by decide
/-- T-P15: STATUS inside a frame. -/
theorem test_status_in_frame :
    seen (exec .status (one Params.default 0 { Block.reset with ps := .getData, hdr1 := 0x12, size := 0x04, rxIdx := 2 })) =
      some ({ Block.reset with ps := .getData, hdr1 := 0x12, size := 0x04, rxIdx := 2 },
        [.response [0x00, 0x03, 0x12, 0x04, 0x02, 0x00, 0x00, 0x10, 0x00]]) := by decide
/-- R53: a count above 255, little-endian. -/
theorem test_status_little_endian :
    seen (exec .status (one { Params.default with txCap := 65535 } 0 { Block.reset with txCount := 0x0102 })) =
      some ({ Block.reset with txCount := 0x0102 },
        [.response [0x00, 0x00, 0x00, 0x00, 0x00, 0x02, 0x01, 0xFD, 0xFE]]) := by decide
/-- T-C3, through the command port. -/
theorem test_step_unassigned :
    seen (step (State.reset.withFetchWord 8 0x7F)) = some (Block.reset, [.response [0x05]]) := by decide
/-- R138's corner case, through the command port. -/
theorem test_step_rxReset :
    seen (step (State.reset.withFetchWord 8 0x11)) = some (Block.reset, [.response [0x00]]) := by decide
/-- I12: reset during a command gives the reset state and no response. -/
theorem test_step_reset_during :
    seen (step ((one Params.default 0 { Block.reset with ps := .getData, size := 0x02, txCount := 3 }).withInputs
      [.resetDuring 0 [0x30]])) = some (Block.reset, []) := by decide
/-- I8, I9, I10 and R20: refused by name. -/
theorem test_step_refusals :
    [[.command 0 [0x10] 0], [.overlap 0 [0x30]], [.command 1 [0x30] 0]].map
        (fun is => refusal (step (State.reset.withInputs is))) =
      [some .truncatedPacket, some .overlappingCommand, some .noSuchPort] := by decide
/-- I10, and the model's choice of log 25: reset during a command presented before the first reset. -/
theorem test_step_before_reset :
    refusal (step { State.reset with resetSeen := false, inputs := [.command 0 [0x30] 0] }) = some .beforeReset ∧
    seen (step { State.reset with resetSeen := false, inputs := [.resetDuring 0 [0x30]] }) = some (Block.reset, []) := by
  decide
/-- The first line of program 1 (R86). -/
theorem test_asm_txPut :
    asmTextAt 0 0 (.txPut 0x12 0x04 [0x11, 0x22, 0x00, 0x33]) = "P0: TX_PUT 12, 04, [11 22 00 33]" := by decide
/-- `pack` of R87 under both layouts. -/
theorem test_putMsg_packs :
    [putMsg Params.default 1 2 [], putMsg { Params.default with hdr1Layout := .ifaceLow } 1 2 []] =
      [.txPut 0x12 0x00 [], .txPut 0x21 0x00 []] := by decide
/-- R8: `TX_CAP` above 65535 and `RX_CAP = 0` are outside the ranges. -/
theorem test_params_wf :
    [Params.default, { Params.default with txCap := 65536 }, { Params.default with rxCap := 0 }].map Params.wf =
      [true, false, false] := by decide

/-! ### Witnesses: concrete states and operands that meet the hypotheses of each statement -/

/-- The instance of a state of one. -/
def only (k : Block) : Port := { block := k, out := [] }

/-- A parser inside a frame of size `size` with these encoded bytes; the FIFO empty. -/
def receiving (ps : PState) (size : Byte) (e : List Byte) : Block :=
  { Block.reset with ps := ps, hdr1 := 0x12, size := size, rxIdx := e.length, rxBuf := (List.range e.length).zip e }

/-- A FIFO whose first frame has had its start byte sent: what is left is `05 00`, in places 1 and 2. -/
def sending : Block :=
  { Block.reset with txBuf := [(0, 0x73), (1, 0x05), (2, 0x00)], txHead := 1, txCount := 2 }

/-- One instance that meets its invariant makes a machine that does. -/
theorem inv_one {P : Params} {k : Block} (accept : Nat) (hP : P.wf = true) (hn : P.numPorts = 1) (hk : k.Inv P) :
    (one P accept k).Inv :=
  ⟨hP, hn.symm, fun p hp => by rw [List.mem_singleton.1 hp]; exact hk⟩

theorem inv_reset : State.reset.Inv := inv_one 0 (by decide) rfl (blockReset_inv (by decide))

theorem inv_getHeader : (one small 1 (receiving .getHeader 0x00 [])).Inv :=
  inv_one 1 (by decide) rfl ⟨by decide, by decide, by decide, ⟨[], rfl, isFrameStream_nil⟩,
    fun h => absurd h (by decide), by decide, by decide, by decide⟩

theorem inv_getSize : (one small 1 (receiving .getSize 0x00 [])).Inv :=
  inv_one 1 (by decide) rfl ⟨by decide, by decide, by decide, ⟨[], rfl, isFrameStream_nil⟩,
    fun h => absurd h (by decide), by decide, by decide, by decide⟩

/-- `size + 1 = RX_CAP`, the data phase just entered. -/
theorem inv_getData_first : (one small 1 (receiving .getData 0x03 [])).Inv :=
  inv_one 1 (by decide) rfl
    ⟨by decide, by decide, by decide, ⟨[], rfl, isFrameStream_nil⟩, fun _ => ⟨[], rfl⟩, by decide, by decide, by decide⟩

/-- `size + 1 = RX_CAP`, one byte missing. -/
theorem inv_getData_last : (one small 1 (receiving .getData 0x03 [0x02, 0x11, 0x02])).Inv :=
  inv_one 1 (by decide) rfl
    ⟨by decide, by decide, by decide, ⟨[], rfl, isFrameStream_nil⟩, fun _ => ⟨[0x02, 0x11, 0x02], rfl⟩, by decide, by decide, by decide⟩

theorem inv_sending : (one Params.default 1 sending).Inv :=
  inv_one 1 (by decide) rfl
    ⟨by decide, by decide, by decide,
      ⟨[0x05, 0x00], rfl, [0x05, 0x00], [], rfl,
        ⟨_, isFrame_frame (h := 0x05) (size := 0x00) (p := []) (by decide) rfl, ⟨[0x73], rfl⟩⟩, nofun⟩,
      fun h => absurd h (by decide), by decide, by decide, by decide⟩

theorem not_mem_replicate {n : Nat} {a b : Byte} (h : a ≠ b) : a ∉ List.replicate n b :=
  fun hm => h (List.eq_of_mem_replicate hm)

/-- Each clause, at payloads of 1 and 254 bytes. -/
theorem witness_CobsEncodeCutsAtZeros :
    (0x00 : Byte) ∉ ([0x73] : List Byte) ∧
    (0x00 : Byte) ∉ List.replicate 254 (0xFF : Byte) ∧
    ((0x00 : Byte) ∉ ([] : List Byte) ∧ ([] ++ 0x00 :: [0x00]).length ≤ 254) ∧
    ((0x00 : Byte) ∉ List.replicate 252 (0x11 : Byte) ∧ (List.replicate 252 (0x11 : Byte) ++ 0x00 :: [0x22]).length ≤ 254) ∧
    ((0x00 : Byte) ∉ List.replicate 253 (0x01 : Byte) ∧ (List.replicate 253 (0x01 : Byte)).length + 1 ≤ 254) :=
  ⟨by decide, not_mem_replicate (by decide), by decide,
    ⟨not_mem_replicate (by decide), by rw [List.length_append, List.length_replicate]; decide⟩,
    not_mem_replicate (by decide), by rw [List.length_replicate]⟩

/-- A zero in the buffer; a first group that overruns, by one and by most; one that ends the buffer; one with another after. -/
theorem witness_CobsDecodeReadsGroups :
    (0x00 : Byte) ∈ ([0x00] : List Byte) ∧
    ((0x00 : Byte) ∉ ([0x02] : List Byte) ∧ ([] : List Byte).length + 1 < (0x02 : Byte).toNat) ∧
    ((0x00 : Byte) ∉ ([0xFF] : List Byte) ∧ ([] : List Byte).length + 1 < (0xFF : Byte).toNat) ∧
    ((0x00 : Byte) ∉ ([0x02, 0x11] : List Byte) ∧ ([0x11] : List Byte).length + 1 = (0x02 : Byte).toNat) ∧
    ((0x00 : Byte) ∉ ([0x01, 0x01] : List Byte) ∧ (0x01 : Byte).toNat < ([0x01] : List Byte).length + 1) := by decide

theorem witness_CobsEncodeLengthAndDelimiter :
    (1 ≤ ([0x00] : List Byte).length ∧ ([0x00] : List Byte).length ≤ 254) ∧
    1 ≤ (List.replicate 254 (0x73 : Byte)).length ∧ (List.replicate 254 (0x73 : Byte)).length ≤ 254 := by
  rw [List.length_replicate]; decide

/-- Clause (b) also at the one-byte buffer, clause (c) at two bytes. -/
theorem witness_CobsRoundTripAndCanonical :
    cobsDecode [0x01] = some [] ∧ cobsDecode [0x01, 0x01] = some [0x00] ∧
    cobsDecode [0x03, 0x11, 0x22] = some [0x11, 0x22] := by decide

/-- The state after reset, with the operands at both ends of each range. -/
theorem witness_EncAnswersEncodedPayload :
    State.reset.ports[State.reset.port]? = some (only Block.reset) ∧
    ([] : List Byte).length = (0x00 : Byte).toNat ∧ ([0x00] : List Byte).length = (0x01 : Byte).toNat ∧
    (List.replicate 254 (0x73 : Byte)).length = (0xFE : Byte).toNat ∧
    (List.replicate 255 (0x73 : Byte)).length = (0xFF : Byte).toNat :=
  ⟨rfl, rfl, rfl, List.length_replicate, List.length_replicate⟩

theorem witness_DecAnswersDecodedPayload :
    State.reset.ports[State.reset.port]? = some (only Block.reset) ∧
    ([] : List Byte).length = (0x00 : Byte).toNat ∧ ([0x01] : List Byte).length = (0x01 : Byte).toNat ∧
    (List.replicate 255 (0x01 : Byte)).length = (0xFF : Byte).toNat :=
  ⟨rfl, rfl, rfl, List.length_replicate⟩

theorem witness_EncDecStatusIdempotent :
    State.reset.ports[State.reset.port]? = some (only Block.reset) ∧
    (Instr.status = .status ∨ (∃ n p, Instr.status = .enc n p) ∨ ∃ m e, Instr.status = .dec m e) :=
  ⟨rfl, .inl rfl⟩

theorem witness_RxByteWaitForStart :
    State.reset.ports[State.reset.port]? = some (only Block.reset) ∧ Block.reset.ps = .waitForStart := by decide

theorem witness_RxByteGetHeader :
    (one small 0 (receiving .getHeader 0x00 [])).ports[0]? = some (only (receiving .getHeader 0x00 [])) ∧
    (receiving .getHeader 0x00 []).ps = .getHeader := by decide

/-- With `RX_CAP = 4`: 0xFF and 4 are dropped, 0 is delivered, 3 and 1 start the data phase. -/
theorem witness_RxByteGetSize :
    (one small 0 (receiving .getSize 0x00 [])).ports[0]? = some (only (receiving .getSize 0x00 [])) ∧
    (receiving .getSize 0x00 []).ps = .getSize ∧ 1 ≤ small.rxCap ∧
    ((0xFF : Byte) = 0xFF ∨ small.rxCap < (0xFF : Byte).toNat + 1) ∧
    ((0x04 : Byte) = 0xFF ∨ small.rxCap < (0x04 : Byte).toNat + 1) ∧
    ((0x03 : Byte) ≠ 0x00 ∧ (0x03 : Byte) ≠ 0xFF ∧ (0x03 : Byte).toNat + 1 ≤ small.rxCap) ∧
    ((0x01 : Byte) ≠ 0x00 ∧ (0x01 : Byte) ≠ 0xFF ∧ (0x01 : Byte).toNat + 1 ≤ small.rxCap) := by decide

/-- The first byte of the data phase, and the last of a frame that fills `RX_CAP`. -/
theorem witness_RxByteGetData :
    ((one small 0 (receiving .getData 0x03 [])).ports[0]? = some (only (receiving .getData 0x03 [])) ∧
      (receiving .getData 0x03 []).rxIdx < small.rxCap ∧
      (receiving .getData 0x03 []).rxIdx ≠ (receiving .getData 0x03 []).size.toNat) ∧
    ((one small 0 (receiving .getData 0x03 [0x02, 0x11, 0x02])).ports[0]? =
        some (only (receiving .getData 0x03 [0x02, 0x11, 0x02])) ∧
      (receiving .getData 0x03 [0x02, 0x11, 0x02]).size.toNat + 1 ≤ small.rxCap ∧
      (receiving .getData 0x03 [0x02, 0x11, 0x02]).rxIdx = (receiving .getData 0x03 [0x02, 0x11, 0x02]).size.toNat ∧
      (∀ i < 3, Memory.read (receiving .getData 0x03 [0x02, 0x11, 0x02]).rxBuf i =
        ([0x02, 0x11, 0x02] : List Byte)[i]?)) := by decide

theorem witness_RxByteAlwaysAnswersOk :
    (one small 1 (receiving .getData 0x03 [0x02, 0x11, 0x02])).Inv ∧
    (one small 1 (receiving .getData 0x03 [0x02, 0x11, 0x02])).ports[0]? =
      some (only (receiving .getData 0x03 [0x02, 0x11, 0x02])) := ⟨inv_getData_last, rfl⟩

/-- One state for each of the three clauses, and the data clause at its first and last byte. -/
theorem witness_StartByteInsideFrameIsData :
    ((one small 1 (receiving .getHeader 0x00 [])).Inv ∧ (receiving .getHeader 0x00 []).ps = .getHeader) ∧
    ((one small 1 (receiving .getSize 0x00 [])).Inv ∧ (receiving .getSize 0x00 []).ps = .getSize) ∧
    ((one small 1 (receiving .getData 0x03 [])).Inv ∧ (receiving .getData 0x03 []).ps = .getData) ∧
    (one small 1 (receiving .getData 0x03 [0x02, 0x11, 0x02])).Inv :=
  ⟨⟨inv_getHeader, rfl⟩, ⟨inv_getSize, rfl⟩, ⟨inv_getData_first, rfl⟩, inv_getData_last⟩

theorem witness_RxResetResetsParser :
    (one small 1 (receiving .getData 0x03 [])).ports[0]? = some (only (receiving .getData 0x03 [])) := by decide

/-- An RX_BYTE step that changes `ps`. -/
theorem witness_OnlyParserCommandsChangePs :
    ∃ t q', step (State.reset.withInputs [.command 0 [0x10, 0x73] 0]) = .next t ∧ t.ports[0]? = some q' ∧
      q'.block.ps ≠ Block.reset.ps := ⟨_, _, rfl, rfl, by decide⟩

/-- A parser in GET_HEADER, and 257 bytes; and a parser in WAIT_FOR_START with no byte, and with one, before the 0x73. -/
theorem witness_ParserRecoversWithin257Bytes :
    (one small 1 (receiving .getHeader 0x00 [])).Inv ∧
    (one small 1 (receiving .getHeader 0x00 [])).ports[0]? = some (only (receiving .getHeader 0x00 [])) ∧
    (receiving .getHeader 0x00 []).ps ≠ .waitForStart ∧ (List.replicate 257 (0x73 : Byte)).length = 257 ∧
    State.reset.Inv ∧ Block.reset.ps = .waitForStart ∧ (0x73 : Byte) ∉ ([] : List Byte) ∧
    (0x73 : Byte) ∉ ([0x72] : List Byte) :=
  ⟨inv_getHeader, rfl, by decide, List.length_replicate, inv_reset, rfl, by decide, by decide⟩

/-- From inside a frame: an empty chunk followed by a TX_PUT and a partial TX_SEND, and a byte followed by an unassigned opcode. -/
theorem witness_ChunkingDoesNotMatter :
    (one small 1 (receiving .getData 0x03 [0x02, 0x11, 0x02])).Inv ∧
    (one small 1 (receiving .getData 0x03 [0x02, 0x11, 0x02])).ports[0]? =
      some (only (receiving .getData 0x03 [0x02, 0x11, 0x02])) ∧
    (∀ x ∈ ([([], [(0, .instr (.txPut 0x05 0x00 [])), (1, .instr .txSend)]), ([0x22], [(0, .illegal 0x12)])] :
        List (List Byte × List (Nat × Command))),
      ∀ c ∈ x.2, c.2.wf = true ∧ c.2 ≠ .instr .rxReset ∧ ∀ b, c.2 ≠ .instr (.rxByte b)) := by
  refine ⟨inv_getData_last, rfl, ?_⟩
  simp only [List.forall_mem_cons, List.not_mem_nil, false_imp_iff, implies_true, and_true]
  exact ⟨⟨⟨by decide, by decide, nofun⟩, by decide, by decide, nofun⟩, by decide, by decide, nofun⟩

/-- The whole data phase still to come, and its last byte. -/
theorem witness_DataPhaseTakesNextBytesAsItsOwn :
    ((one small 1 (receiving .getData 0x03 [])).Inv ∧ (receiving .getData 0x03 []).ps = .getData ∧
      ([] : List Byte).length = (receiving .getData 0x03 []).rxIdx ∧
      0 + ([0x73, 0x73, 0x73, 0x73] : List Byte).length = (0x03 : Byte).toNat + 1) ∧
    ((one small 1 (receiving .getData 0x03 [0x02, 0x11, 0x02])).Inv ∧
      (receiving .getData 0x03 [0x02, 0x11, 0x02]).rxIdx = 3 ∧
      (∀ i < 3, Memory.read (receiving .getData 0x03 [0x02, 0x11, 0x02]).rxBuf i =
        ([0x02, 0x11, 0x02] : List Byte)[i]?) ∧
      3 + ([0x73] : List Byte).length = (0x03 : Byte).toNat + 1) :=
  ⟨⟨inv_getData_first, rfl, rfl, rfl⟩, inv_getData_last, rfl, by decide, rfl⟩

/-- The empty message, and one of 254 bytes. -/
theorem witness_WholeFrameIsDelivered :
    State.reset.Inv ∧ State.reset.ports[State.reset.port]? = some (only Block.reset) ∧
    Block.reset.ps = .waitForStart ∧ ([] : List Byte).length = (0x00 : Byte).toNat ∧
    (List.replicate 254 (0x00 : Byte)).length = (0xFE : Byte).toNat ∧ (0xFE : Byte).toNat + 1 ≤ State.reset.params.rxCap :=
  ⟨inv_reset, rfl, rfl, rfl, List.length_replicate, by decide⟩

/-- T-P10's shape: a frame of size 1 cut after its code byte, completed by a zero; then `00`, then an empty message. -/
theorem witness_ResynchronizationCases :
    State.reset.Inv ∧ State.reset.ports[State.reset.port]? = some (only Block.reset) ∧ Block.reset.ps = .waitForStart ∧
    1 ≤ (0x01 : Byte).toNat ∧ (0x01 : Byte).toNat ≤ 254 ∧ (0x01 : Byte).toNat + 1 ≤ State.reset.params.rxCap ∧
    ([0x02] : List Byte).length < (0x01 : Byte).toNat + 1 ∧
    ([] : List Byte).length = (0x00 : Byte).toNat ∧ (0x00 : Byte).toNat + 1 ≤ State.reset.params.rxCap ∧
    ([0x02] : List Byte).length + ([0x00] : List Byte).length = (0x01 : Byte).toNat + 1 ∧
    cobsDecode ([0x02] ++ [0x00]) = none ∧ (0x73 : Byte) ∉ ([] : List Byte) ∧ (0x73 : Byte) ∉ ([0x00] : List Byte) :=
  ⟨inv_reset, rfl, rfl, by decide, by decide, by decide, by decide, rfl, by decide, rfl, by decide, by decide, by decide⟩

theorem witness_FrameBytesAndLength :
    (1 ≤ (0x01 : Byte).toNat ∧ ([0x00] : List Byte).length = (0x01 : Byte).toNat) ∧
    (0xFE : Byte).toNat ≤ 254 ∧ (List.replicate 254 (0x11 : Byte)).length = (0xFE : Byte).toNat :=
  ⟨by decide, by decide, List.length_replicate⟩

/-- Each of the three outcomes: 255 bytes; a frame one byte too long (T-Q9); a frame that just fits (T-Q10). -/
theorem witness_TxPutResult :
    State.reset.ports[State.reset.port]? = some (only Block.reset) ∧
    (List.replicate 255 (0x11 : Byte)).length = (0xFF : Byte).toNat ∧
    ((0x0D : Byte) ≠ 0xFF ∧ State.reset.params.txCap - Block.reset.txCount < frameLen (0x0D : Byte).toNat) ∧
    ((0x0C : Byte) ≠ 0xFF ∧ frameLen (0x0C : Byte).toNat ≤ State.reset.params.txCap - Block.reset.txCount) :=
  ⟨rfl, List.length_replicate, by decide, by decide⟩

theorem witness_TxPutQueuesWholeFrameOrNothing :
    (one Params.default 1 sending).Inv ∧ (one Params.default 1 sending).ports[0]? = some (only sending) ∧
    ([] : List Byte).length = (0x00 : Byte).toNat ∧ sending.queue Params.default = .ok [0x05, 0x00] :=
  ⟨inv_sending, rfl, rfl, rfl⟩

/-- Two bytes queued, one accepted. -/
theorem witness_TxSendEmitsOldestBytes :
    (one Params.default 1 sending).ports[0]? = some (only sending) ∧
    sending.queue Params.default = .ok [0x05, 0x00] ∧ min (one Params.default 1 sending).accept sending.txCount = 1 :=
  ⟨rfl, rfl, rfl⟩

theorem witness_TxSendLeavesRestQueued :
    ∃ t q', exec .txSend (one Params.default 1 sending) = .next t ∧ t.ports[0]? = some q' ∧ q'.block.txCount = 1 :=
  ⟨_, _, rfl, rfl, rfl⟩

/-- A run of two steps, a TX_PUT and a send of one byte, from a state that meets the invariant, and from reset. -/
theorem witness_TransmitOrderIsQueueOrder :
    State.reset.Inv ∧ Params.default.wf = true ∧
    noReset [.command 0 [0x20, 0x05, 0x00] 0, .command 0 [0x21] 1] = true ∧
    ∃ t q', Host.Core.run Sys2Proof.core 2
        (State.reset.withInputs [.command 0 [0x20, 0x05, 0x00] 0, .command 0 [0x21] 1]) = .next t ∧
      t.ports[0]? = some q' ∧ Block.reset.queue Params.default = .ok [] ∧
      q'.block.queue t.params = .ok [0x05, 0x00] ∧ txBytes q'.out = [0x73] :=
  ⟨inv_reset, by decide, by decide, _, _, rfl, rfl, rfl, rfl, rfl⟩

/-- `TX_CAP = 16`, empty: the sizes 12 and 13, and the largest. -/
theorem witness_FifoCapacityCorner :
    State.reset.ports[State.reset.port]? = some (only Block.reset) ∧ Block.reset.txCount = 0 ∧
    State.reset.params.txCap = 16 ∧ (List.replicate 12 (0x11 : Byte)).length = (0x0C : Byte).toNat ∧
    (List.replicate 13 (0x11 : Byte)).length = (0x0D : Byte).toNat ∧
    State.reset.params.txCap < frameLen (0x0D : Byte).toNat ∧
    (List.replicate 254 (0x11 : Byte)).length = (0xFE : Byte).toNat :=
  ⟨rfl, rfl, rfl, rfl, rfl, by decide, List.length_replicate⟩

/-- Two frames of 8 bytes into 16, and a third. -/
theorem witness_OverflowEventuallyRefuses :
    State.reset.Inv ∧ State.reset.ports[State.reset.port]? = some (only Block.reset) ∧ Block.reset.txCount = 0 ∧
    8 ≤ State.reset.params.txCap ∧
    (∀ x ∈ List.replicate 2 ((0x12 : Byte), (0x04 : Byte), ([0x11, 0x22, 0x00, 0x33] : List Byte)) ++
        [((0x12 : Byte), (0x04 : Byte), ([0x11, 0x22, 0x00, 0x33] : List Byte))],
      x.2.1.toNat ≤ 254 ∧ x.2.2.length = x.2.1.toNat ∧ frameLen x.2.1.toNat = 8) :=
  ⟨inv_reset, rfl, rfl, by decide, by decide⟩

theorem witness_DrainEmptiesQueue :
    (one Params.default 1 sending).ports[0]? = some (only sending) ∧
    sending.queue Params.default = .ok [0x05, 0x00] ∧ (∀ a ∈ [1, 1], 1 ≤ a) ∧ sending.txCount ≤ [1, 1].length :=
  ⟨rfl, rfl, by decide, by decide⟩

/-- One instance looped to itself, and two looped from one to the other; payloads of 0 and 12 bytes. -/
theorem witness_LoopbackDeliversMessage :
    State.reset.Inv ∧ State.reset.ports[0]? = some (only Block.reset) ∧
    (State.resetWith { Params.default with numPorts := 2 }).ports[1]? = some (only Block.reset) ∧
    Block.reset.txCount = 0 ∧ Block.reset.ps = .waitForStart ∧
    frameLen ([] : List Byte).length ≤ State.reset.params.txCap ∧
    frameLen (List.replicate 12 (0x00 : Byte)).length ≤ State.reset.params.txCap ∧
    (List.replicate 12 (0x00 : Byte)).length + 1 ≤ State.reset.params.rxCap ∧
    (∀ x ∈ List.replicate 16 1, 1 ≤ x) ∧
    frameLen (List.replicate 12 (0x00 : Byte)).length ≤ (List.replicate 16 1).length :=
  ⟨inv_reset, rfl, rfl, rfl, rfl, by decide, by decide, by decide, by decide, by decide⟩

theorem witness_StatusAnswersRegisterView :
    (one small 1 (receiving .getData 0x03 [])).ports[0]? = some (only (receiving .getData 0x03 [])) := by decide

/-- The smallest, the largest and a middle unassigned opcode. -/
theorem witness_UnassignedOpcodeAnswersIllegal :
    (∀ op ∈ ([0x00, 0x12, 0xFF] : List Byte), op ∉ ([0x01, 0x02, 0x10, 0x11, 0x20, 0x21, 0x30] : List Byte)) ∧
    State.reset.resetSeen = true ∧ (State.reset.withInputs [.command 0 [0x12] 0]).inputs = [.command 0 [0x12] 0] ∧
    State.reset.ports[0]? = some (only Block.reset) := by decide

theorem witness_DecodeInvertsEncode :
    Instr.wf (.enc 0x00 []) = true ∧ Instr.wf (.txPut 0x12 0xFF (List.replicate 255 0x00)) = true :=
  ⟨by decide, by rw [Instr.wf, List.length_replicate]; decide⟩

theorem witness_PacketBytesAreDetermined :
    decode [0x20, 0x12, 0x01, 0xAA, 0x30] = .ok (.instr (.txPut 0x12 0x01 [0xAA]), [0x30]) := by decide

/-- No length operand; one byte short; one byte over; and the length R84 reads. -/
theorem witness_PacketsOfWrongLengthAreRefused :
    State.reset.resetSeen = true ∧ State.reset.Inv ∧ 0 < State.reset.params.numPorts ∧
    packetLength [0x01] = none ∧
    (packetLength [0x01, 0x02, 0x11] = some 4 ∧ [0x01, 0x02, 0x11].length < 4) ∧
    (packetLength [0x11, 0x00] = some 1 ∧ 1 < [0x11, 0x00].length) ∧
    packetLength [0x10, 0x73] = some [0x10, 0x73].length :=
  ⟨rfl, inv_reset, by decide, by decide, by decide, by decide, by decide⟩

theorem witness_StepRunsDecodedCommand :
    State.reset.resetSeen = true ∧ decodePacket [0x10, 0x73] = .ok (.instr (.rxByte 0x73)) ∧
    Instr.wf (.txPut 0x12 0x01 [0xAA]) = true := by decide

/-- The operands at both ends of each range. -/
theorem witness_EveryCommandCompletes :
    State.reset.Inv ∧ State.reset.port < State.reset.params.numPorts ∧
    ([] : List Byte).length = (0x00 : Byte).toNat ∧ (List.replicate 255 (0x00 : Byte)).length = (0xFF : Byte).toNat :=
  ⟨inv_reset, by decide, rfl, List.length_replicate⟩

theorem witness_ResetGivesResetValues :
    (State.reset.withInputs [.reset]).inputs = [.reset] ∧
    (State.reset.withInputs [.resetDuring 0 [0x30]]).inputs = [.resetDuring 0 [0x30]] := by decide

/-- The ends of the ranges of R8. -/
theorem witness_ResetMeetsInvariant :
    Params.wf { rxCap := 1, txCap := 1, numPorts := 1, hdr1Layout := .ifaceLow, feedN := 0 } = true ∧
    Params.wf { rxCap := 512, txCap := 65535, numPorts := 3, hdr1Layout := .ifaceHigh, feedN := 64 } = true := by decide

/-- From a queue cut inside a frame, a step that queues another. -/
theorem witness_EveryStepKeepsInvariant :
    ((one Params.default 1 sending).withInputs [.command 0 [0x20, 0x05, 0x00] 0]).Inv ∧
    ∃ t, step ((one Params.default 1 sending).withInputs [.command 0 [0x20, 0x05, 0x00] 0]) = .next t :=
  ⟨Inv.of_ports inv_sending rfl rfl, _, rfl⟩

theorem witness_NoRunEverFaults :
    ((one small 1 (receiving .getData 0x03 [0x02, 0x11, 0x02])).withInputs [.command 0 [0x10, 0x22] 0]).Inv :=
  Inv.of_ports inv_getData_last rfl rfl

/-- Two states of two instances that differ in the instance the command does not go to. -/
theorem witness_InstancesAreIndependent :
    ∃ (s s₂ t : State), exec (.rxByte 0x73) s = .next t ∧ s₂.params = s.params ∧ s₂.port = s.port ∧ s₂.accept = s.accept ∧
      s₂.ports[s.port]? = s.ports[s.port]? ∧ s₂.ports[1]? ≠ s.ports[1]? :=
  ⟨State.resetWith { Params.default with numPorts := 2 },
    { State.resetWith { Params.default with numPorts := 2 } with ports := [only Block.reset, only sending] },
    _, rfl, rfl, rfl, rfl, rfl, by decide⟩

theorem witness_InterleavingDoesNotMatter :
    (0 : Nat) ≠ 1 ∧
    ∃ t, Host.Core.run Sys2Proof.core 2
      ((State.resetWith { Params.default with numPorts := 2 }).withInputs
        [.command 0 [0x10, 0x73] 0, .command 1 [0x20, 0x05, 0x00] 0]) = .next t :=
  ⟨by decide, _, rfl⟩

/-- The RX_BYTE that completes an empty message, and its reply. -/
theorem witness_ReplyOrderDoesNotMatter :
    ∃ t u q, exec (.rxByte 0x00) (one small 1 (receiving .getSize 0x00 [])) = .next t ∧
      exec (.txPut 0x05 0x00 []) t = .next u ∧ u.ports[0]? = some q := ⟨_, _, _, rfl, rfl, rfl⟩

theorem witness_OutputsAndParametersAreKept :
    ∃ t q', step (State.reset.withInputs [.reset]) = .next t ∧ State.reset.ports[0]? = some (only Block.reset) ∧
      t.ports[0]? = some q' := ⟨_, _, rfl, rfl, rfl⟩

/-- Each of the three commands, answering 01, 02 and 03. -/
theorem witness_ErrorsLeaveStateUnchanged :
    (∃ t, exec (.enc 0x00 []) State.reset = .next t ∧ t.lastStatus = some 0x01) ∧
    (∃ t, exec (.dec 0x01 [0x00]) State.reset = .next t ∧ t.lastStatus = some 0x02) ∧
    (∃ t, exec (.txPut 0x12 0x0D (List.replicate 13 0x11)) State.reset = .next t ∧ t.lastStatus = some 0x03) :=
  ⟨⟨_, rfl, rfl⟩, ⟨_, rfl, rfl⟩, ⟨_, rfl, rfl⟩⟩

theorem witness_IllegalPresentationsAreRefused :
    (State.reset.resetSeen = true ∧ (State.reset.withInputs [.overlap 0 [0x30]]).inputs = [.overlap 0 [0x30]]) ∧
    ({ State.reset with resetSeen := false } : State).resetSeen = false ∧
    (Instr.wf .status = true ∧ State.reset.ports.length ≤ 1) ∧
    (∀ op ∈ ([0x00, 0x12, 0xFF] : List Byte),
      op ∉ ([0x01, 0x02, 0x10, 0x11, 0x20, 0x21, 0x30] : List Byte)) := by decide

theorem witness_NothingHappensBetweenCommands : State.reset.inputs = [] := by decide

end Sys2Proof.Machine.Tests
end

/-! PROOF. What every step keeps (R30, R37), what reset gives (R36, R250), and the independence of the instances (R20). The
argument about one instance is in the laws of the parser and of the FIFO (`effectOf_keeps`, `effectOf_total`); here it is
carried to the machine, to a step, and to a run. -/

namespace Sys2Proof.Machine

/-! ### An unassigned opcode -/

/-- An unassigned opcode only answers on its instance (R201). -/
theorem execIllegal_eq_next {op : Byte} {s t : State} :
    execIllegal op s = .next t ↔
      ∃ q, s.ports[s.port]? = some q ∧
        t = s.putPort ⟨q.block, q.out ++ [.response [StatusCode.errIllegal.toByte]]⟩ := by
  rw [execIllegal, onPort_eq_next]
  constructor
  · rintro ⟨q, e, hq, he, rfl⟩
    cases he
    exact ⟨q, hq, rfl⟩
  · rintro ⟨q, hq, rfl⟩
    exact ⟨q, _, hq, rfl, rfl⟩

theorem execIllegal_ne_fault (op : Byte) (s : State) (r : Fault) : execIllegal op s ≠ .fault r := by
  intro h
  obtain ⟨q, -, he⟩ := onPort_eq_fault.1 h
  cases he

theorem execIllegal_keeps_inv {op : Byte} {s t : State} (hs : s.Inv) (h : execIllegal op s = .next t) : t.Inv := by
  obtain ⟨q, hq, rfl⟩ := execIllegal_eq_next.1 h
  have hk : q.block.Inv s.params := blockInv_of_port hs hq
  exact putPort_keeps hs hk

/-! ### A command -/

/-- A well-formed command keeps the machine's invariant: it puts back one instance, which meets its own. -/
theorem exec_keeps_inv {i : Instr} {s t : State} (hs : s.Inv) (hi : i.wf = true) (h : exec i s = .next t) : t.Inv := by
  obtain ⟨q, e, hq, he, rfl⟩ := exec_eq_next.1 h
  exact putPort_keeps hs (effectOf_keeps (blockInv_of_port hs hq) hi he)

/-- From the invariant no command faults (R37). -/
theorem exec_ne_fault {s : State} (hs : s.Inv) (i : Instr) (r : Fault) : exec i s ≠ .fault r := by
  intro h
  rw [exec_eq_onPort] at h
  obtain ⟨q, hq, hr⟩ := onPort_eq_fault.1 h
  obtain ⟨e, he⟩ := effectOf_total (port := s.port) (A := s.accept) (blockInv_of_port hs hq) i
  exact nomatch hr.symm.trans he

/-- A command leaves every other instance as it was (R20). -/
theorem exec_ports_other {i : Instr} {s t : State} {n : Nat} (h : exec i s = .next t) (hn : n ≠ s.port) :
    t.ports[n]? = s.ports[n]? := by
  obtain ⟨q, e, -, -, rfl⟩ := exec_eq_next.1 h
  exact putPort_other hn

/-- What a command does to its instance depends on that instance, its number, the parameters and the offer alone (R20). -/
theorem exec_congr {i : Instr} {s s₂ t : State} (h : exec i s = .next t) (hP : s₂.params = s.params)
    (hn : s₂.port = s.port) (hA : s₂.accept = s.accept) (hq₂ : s₂.ports[s.port]? = s.ports[s.port]?) :
    ∃ t₂, exec i s₂ = .next t₂ ∧ t₂.ports[s.port]? = t.ports[s.port]? := by
  obtain ⟨q, e, hq, he, rfl⟩ := exec_eq_next.1 h
  have hq' : s₂.ports[s₂.port]? = some q := by rw [hn, hq₂, hq]
  refine ⟨s₂.putPort ⟨e.block, q.out ++ e.out⟩, exec_eq_next.2 ⟨q, e, hq', ?_, rfl⟩, ?_⟩
  · rw [hP, hn, hA, he]
  · rw [putPort_self hq, ← hn, putPort_self hq']

/-! ### Reset -/

/-- Reset gives every instance the values of R36, which meet the invariant. -/
theorem resetAll_keeps_inv {s : State} (hs : s.Inv) : s.resetAll.Inv := by
  refine ⟨hs.params, by simpa using hs.ports, ?_⟩
  intro p hp
  obtain ⟨q, -, rfl⟩ := List.mem_map.1 hp
  exact blockReset_inv hs.params

theorem resetWith_inv {P : Params} (hP : P.wf = true) : (State.resetWith P).Inv := by
  refine ⟨hP, List.length_replicate, ?_⟩
  intro p hp
  obtain rfl := List.eq_of_mem_replicate hp
  exact blockReset_inv hP

/-- Reset is a whole step, between commands or during one (R250). -/
theorem step_of_reset {s : State} {rest : List Input}
    (h : s.inputs = .reset :: rest ∨ ∃ n packet, s.inputs = .resetDuring n packet :: rest) :
    step s = .next (s.withInputs rest).resetAll := by
  rcases h with h | ⟨n, packet, h⟩ <;> simp only [step, fetch, h]

/-! ### A step -/

/-- A step faults only where the command it runs does. -/
theorem step_eq_fault {s : State} {r : Fault} (h : step s = .fault r) :
    (∃ i u, fetch s = .run i u ∧ exec i u = .fault r) ∨
    (∃ op u, fetch s = .illegal op u ∧ execIllegal op u = .fault r) := by
  unfold step at h
  split at h
  · cases h
  · cases h
  · rename_i i u hf; exact .inl ⟨i, u, hf, h⟩
  · rename_i op u hf; exact .inr ⟨op, u, hf, h⟩
  · cases h

theorem fetch_run_inv {s u : State} {i : Instr} (hs : s.Inv) (h : fetch s = .run i u) : u.Inv := by
  obtain ⟨-, n, packet, a, rest, -, -, -, rfl⟩ := fetch_run h
  exact Inv.of_ports hs rfl rfl

theorem fetch_illegal_inv {s u : State} {op : Byte} (hs : s.Inv) (h : fetch s = .illegal op u) : u.Inv := by
  obtain ⟨n, packet, a, rest, -, -, -, rfl⟩ := fetch_illegal h
  exact Inv.of_ports hs rfl rfl

theorem fetch_reset_inv {s u : State} (hs : s.Inv) (h : fetch s = .reset u) : u.Inv := by
  obtain ⟨rest, rfl, -⟩ := fetch_reset h
  exact Inv.of_ports hs rfl rfl

theorem step_keeps_inv {s t : State} (hs : s.Inv) (h : step s = .next t) : t.Inv := by
  rcases step_cases h with ⟨-, rfl⟩ | ⟨u, hf, rfl⟩ | ⟨i, u, hf, hx⟩ | ⟨op, u, hf, hx⟩
  · exact hs
  · exact resetAll_keeps_inv (fetch_reset_inv hs hf)
  · exact exec_keeps_inv (fetch_run_inv hs hf) (fetch_run hf).1 hx
  · exact execIllegal_keeps_inv (fetch_illegal_inv hs hf) hx

theorem step_ne_fault {s : State} (hs : s.Inv) (r : Fault) : step s ≠ .fault r := by
  intro h
  rcases step_eq_fault h with ⟨i, u, hf, hx⟩ | ⟨op, u, -, hx⟩
  · exact exec_ne_fault (fetch_run_inv hs hf) i r hx
  · exact execIllegal_ne_fault op u r hx

/-! ### A run -/

theorem run_ne_fault {s : State} (hs : s.Inv) (n : Nat) (r : Fault) :
    Host.Core.run Sys2Proof.core n s ≠ .fault r := by
  induction n generalizing s with
  | zero => exact nofun
  | succ n ih =>
    intro h
    rcases run_succ_eq_fault.1 h with h | ⟨u, hu, h⟩
    · exact step_ne_fault hs r h
    · exact ih (step_keeps_inv hs hu) h

/-! ### The statements -/

/-- Settles O41: by cases on what the step did; a command keeps the invariant of its instance, and reset gives the values of
R36. -/
theorem everyStepKeepsInvariant : Obligations.EveryStepKeepsInvariant :=
  fun _ _ hs h => step_keeps_inv hs h

/-- Settles O42, by induction on the number of steps: the invariant holds before each, and from it no step faults. -/
theorem noRunEverFaults : Obligations.NoRunEverFaults :=
  fun _ hs n r => run_ne_fault hs n r

/-- Settles O43: a command is a function of its instance, put back in that instance's place. -/
theorem instancesAreIndependent : Obligations.InstancesAreIndependent :=
  fun _ _ _ h => ⟨fun _ hn => exec_ports_other h hn, fun _ hP hn hA hq => exec_congr h hP hn hA hq⟩

/-- Settles O39: the step is `State.resetAll`, which resets each instance in its place. -/
theorem resetGivesResetValues : Obligations.ResetGivesResetValues := by
  intro s rest h
  refine ⟨_, step_of_reset h, rfl, rfl, rfl, by simp, ?_⟩
  intro n q hq
  exact ⟨q.reset, by simp [hq], rfl, rfl, rfl, rfl, rfl, rfl, rfl⟩

/-- Settles O40: the state after reset, whatever the outside will present. -/
theorem resetMeetsInvariant : Obligations.ResetMeetsInvariant :=
  fun _ _ hP => Inv.of_ports (resetWith_inv hP) rfl rfl

end Sys2Proof.Machine

/-! PROOF. The memory family (R54 to R58): what leaves an instance and what stays queued, that commands to different instances
commute, and the step as a decoded command. -/

namespace Sys2Proof

/-- The decoder gives back a well-formed command and leaves the bytes behind its packet. -/
theorem decode_encode_append {c : Command} (hc : c.wf = true) (rest : List Byte) :
    decode (c.encode ++ rest) = .ok (c, rest) := by
  cases c with
  | illegal op =>
    have ho : Opcode.ofByte op = none := by simpa [Command.wf] using hc
    simp only [Command.encode, List.singleton_append, decode, ho]
  | instr i =>
    cases i with
    | enc n p =>
      have ht : takeBytes n.toNat (p ++ rest) = .ok (p, rest) :=
        takeBytes_eq_ok.2 ⟨by simpa [Command.wf, Instr.wf] using hc, rfl⟩
      simp only [Command.encode, encode, List.cons_append, decode, Opcode.ofByte_toByte, ht]
    | dec m e =>
      have ht : takeBytes m.toNat (e ++ rest) = .ok (e, rest) :=
        takeBytes_eq_ok.2 ⟨by simpa [Command.wf, Instr.wf] using hc, rfl⟩
      simp only [Command.encode, encode, List.cons_append, decode, Opcode.ofByte_toByte, ht]
    | txPut h size p =>
      have ht : takeBytes size.toNat (p ++ rest) = .ok (p, rest) :=
        takeBytes_eq_ok.2 ⟨by simpa [Command.wf, Instr.wf] using hc, rfl⟩
      simp only [Command.encode, encode, List.cons_append, decode, Opcode.ofByte_toByte, ht]
    | rxByte b => rfl
    | rxReset => rfl
    | txSend => rfl
    | status => rfl

theorem decodePacket_encode {c : Command} (hc : c.wf = true) : decodePacket c.encode = .ok c :=
  decodePacket_eq_ok.2 (by simpa using decode_encode_append hc [])

end Sys2Proof

namespace Sys2Proof.Machine

/-! ### A step that takes a command -/

/-- What a decoded packet does to its instance. -/
def commandEffect (P : Params) (port accept : Nat) : Command → Block → Except Fault Effect
  | .instr i, k => effectOf P port accept i k
  | .illegal _, k => .ok (k.answer [StatusCode.errIllegal.toByte])

theorem execCommand_eq_onPort (c : Command) (s : State) :
    execCommand c s = s.onPort (commandEffect s.params s.port s.accept c) := by
  cases c with
  | instr i => exact exec_eq_onPort i s
  | illegal op => rfl

/-- A packet that decodes is run on the instance it was presented to (R57). -/
theorem step_eq_execCommand {s : State} {n a : Nat} {packet : List Byte} {rest : List Input} {c : Command}
    (hr : s.resetSeen = true) (hin : s.inputs = .command n packet a :: rest) (hd : decodePacket packet = .ok c) :
    step s = execCommand c ((s.withInputs rest).select n a) := by
  have hr' : ((s.withInputs rest).select n a).resetSeen = true := hr
  cases c <;> simp only [step, fetch, hin, fetchCommand, hr', hd, if_true, execCommand]

theorem fetch_idle {s : State} (h : fetch s = .idle) : s.inputs = [] := by
  unfold fetch at h
  split at h
  · assumption
  · unfold fetchCommand at h
    split at h
    · split at h <;> cases h
    · cases h
  · cases h
  · cases h
  · cases h

/-- The state after the oldest input is taken as a command of instance `n`, which leaves `q` in its place. -/
def State.afterCommand (s : State) (rest : List Input) (n a : Nat) (q : Port) : State :=
  { s with inputs := rest, port := n, accept := a, ports := s.ports.set n q }

/-- Everything a step that takes a command packet can do when it answers next. -/
theorem step_command_eq_next {s t : State} {n a : Nat} {packet : List Byte} {rest : List Input}
    (hin : s.inputs = .command n packet a :: rest) :
    step s = .next t ↔
      s.resetSeen = true ∧ ∃ c q e, decodePacket packet = .ok c ∧ s.ports[n]? = some q ∧
        commandEffect s.params n a c q.block = .ok e ∧ t = s.afterCommand rest n a ⟨e.block, q.out ++ e.out⟩ := by
  constructor
  · intro h
    obtain ⟨c, hr, hd⟩ : ∃ c, s.resetSeen = true ∧ decodePacket packet = .ok c := by
      rcases step_cases h with ⟨hf, -⟩ | ⟨u, hf, -⟩ | ⟨i, u, hf, -⟩ | ⟨op, u, hf, -⟩
      · cases hin.symm.trans (fetch_idle hf)
      · obtain ⟨_, -, hin' | ⟨_, _, hin'⟩⟩ := fetch_reset hf <;> cases hin.symm.trans hin'
      · obtain ⟨-, _, _, _, _, hin', hr, hd, -⟩ := fetch_run hf
        cases hin.symm.trans hin'
        exact ⟨_, hr, hd⟩
      · obtain ⟨_, _, _, _, hin', hr, hd, -⟩ := fetch_illegal hf
        cases hin.symm.trans hin'
        exact ⟨_, hr, hd⟩
    rw [step_eq_execCommand hr hin hd, execCommand_eq_onPort] at h
    obtain ⟨q, e, hq, he, ht⟩ := onPort_eq_next.1 h
    exact ⟨hr, c, q, e, hd, hq, he, ht⟩
  · rintro ⟨hr, c, q, e, hd, hq, he, rfl⟩
    rw [step_eq_execCommand hr hin hd, execCommand_eq_onPort]
    exact onPort_eq_next.2 ⟨q, e, hq, he, rfl⟩

/-- Two steps, one after the other. -/
theorem run_two_eq_next {s t : State} :
    Host.Core.run Sys2Proof.core 2 s = .next t ↔ ∃ u, step s = .next u ∧ step u = .next t := by
  rw [run_succ_eq_next]
  refine exists_congr fun u => and_congr_right fun _ => run_succ_eq_next.trans ?_
  constructor
  · rintro ⟨v, hv, h⟩
    cases h
    exact hv
  · exact fun h => ⟨t, h, rfl⟩

/-! ### Commands that only answer -/

/-- A command that only answers adds its response to its instance's outputs and changes nothing else. -/
theorem exec_of_answer {i : Instr} {s : State} {q : Port} {r : List Byte} (hq : s.ports[s.port]? = some q)
    (he : effectOf s.params s.port s.accept i q.block = .ok (q.block.answer r)) :
    exec i s = .next (s.putPort { q with out := q.out ++ [.response r] }) :=
  exec_eq_next.2 ⟨q, _, hq, he, rfl⟩

/-- `STATUS`, `ENC` and `DEC` only answer (R56). -/
theorem effectOf_answer {P : Params} {port A : Nat} {i : Instr} (k : Block)
    (hi : i = .status ∨ (∃ n p, i = .enc n p) ∨ ∃ m e, i = .dec m e) :
    ∃ r, effectOf P port A i k = .ok (k.answer r) := by
  obtain rfl | ⟨n, p, rfl⟩ | ⟨m, e, rfl⟩ := hi
  · exact ⟨statusResponse P k, rfl⟩
  · exact ⟨encResponse n p, rfl⟩
  · exact ⟨decResponse m e, rfl⟩

/-! ### What is emitted and what stays queued -/

theorem txBytes_append (os os' : List Output) : txBytes (os ++ os') = txBytes os ++ txBytes os' := by
  induction os with
  | nil => rfl
  | cons o os ih => cases o <;> simp [txBytes, ih]

theorem txBytes_map_tx (bs : List Byte) : txBytes (bs.map .tx) = bs := by
  induction bs with
  | nil => rfl
  | cons b bs ih => simp [txBytes, ih]

/-- From `q` to `q'` the bytes emitted and the bytes queued are together those before, with `f` behind them: bytes move from the
head of the queue to the port, and only `f` is queued. -/
def Transmitted (P : Params) (q q' : Port) (f : List Byte) : Prop :=
  ∀ Q, q.block.queue P = .ok Q →
    ∃ Q', q'.block.queue P = .ok Q' ∧ txBytes q'.out ++ Q' = txBytes q.out ++ Q ++ f

section transmitted
variable {P : Params} {q q₁ q₂ : Port} {k : Block} {e : Effect} {f g : List Byte}

theorem Transmitted.refl (P : Params) (q : Port) : Transmitted P q q [] :=
  fun Q hQ => ⟨Q, hQ, by simp⟩

theorem Transmitted.trans (h₁ : Transmitted P q q₁ f) (h₂ : Transmitted P q₁ q₂ g) : Transmitted P q q₂ (f ++ g) := by
  intro Q hQ
  obtain ⟨Q₁, hQ₁, h₁⟩ := h₁ Q hQ
  obtain ⟨Q₂, hQ₂, h₂⟩ := h₂ Q₁ hQ₁
  exact ⟨Q₂, hQ₂, by rw [h₂, h₁, List.append_assoc _ f g]⟩

/-- A command that leaves the queue and emits no byte. -/
theorem transmitted_of_queue_eq {os : List Output} (hk : k.queue P = q.block.queue P) (ho : txBytes os = []) :
    Transmitted P q ⟨k, q.out ++ os⟩ [] :=
  fun Q hQ => ⟨Q, hk.trans hQ, by simp [txBytes_append, ho]⟩

theorem answer_transmitted (P : Params) (q : Port) (r : List Byte) :
    Transmitted P q ⟨q.block, q.out ++ [.response r]⟩ [] :=
  transmitted_of_queue_eq rfl rfl

theorem rxByteEffect_transmitted {port : Nat} {b : Byte} (he : rxByteEffect P port b q.block = .ok e) :
    Transmitted P q ⟨e.block, q.out ++ e.out⟩ [] := by
  obtain ⟨a, ha, rfl⟩ := rxByteEffect_eq_ok.1 he
  obtain ⟨hb, hh, hc⟩ := rxByteArm_fifo ha
  refine transmitted_of_queue_eq (Block.queue_congr hb hh hc) ?_
  rcases rxByteArm_out ha with ⟨-, ho⟩ | ⟨-, hd, sz, r, ho⟩ <;> simp [ho, deliver, txBytes]

/-- TX_SEND moves the first bytes of the queue to the port. -/
theorem txSendEffect_transmitted {A : Nat} (he : txSendEffect P A q.block = .ok e) :
    Transmitted P q ⟨e.block, q.out ++ e.out⟩ [] := by
  intro Q hQ
  rw [txSendEffect_ok hQ] at he
  cases he
  refine ⟨_, dequeued_queue hQ (Nat.min_le_right A _), ?_⟩
  rw [txBytes_append, txBytes_append, txBytes_map_tx]
  simp [txBytes]

/-- TX_PUT emits nothing, and queues its whole frame when it answers OK, else nothing. -/
theorem txPutEffect_transmitted {h size : Byte} {p : List Byte} (he : txPutEffect P h size p q.block = .ok e) :
    ∃ st, e.out = [.response [st]] ∧ Transmitted P q ⟨e.block, q.out ++ e.out⟩
      (if st = StatusCode.ok.toByte then frame h size p else []) := by
  rcases txPutEffect_cases P h size p q.block with ⟨-, ho⟩ | ⟨-, -, ho⟩ | ⟨-, hf, ho⟩ <;> cases ho.symm.trans he
  · exact ⟨_, rfl, answer_transmitted P q _⟩
  · exact ⟨_, rfl, answer_transmitted P q _⟩
  · refine ⟨_, rfl, fun Q hQ => ⟨Q ++ frame h size p, queued_queue hf ?_ hQ, by simp [txBytes_append, txBytes]⟩⟩
    have : 3 ≤ (frame h size p).length := frame_length_pos
    omega

end transmitted

/-! ### The frames a command, a step and a run queue -/

/-- The bytes a command queues when it answers with status `st`. -/
def queuedOn (st : Option Byte) : Instr → List Byte
  | .txPut h size p => if st = some StatusCode.ok.toByte then frame h size p else []
  | _ => []

/-- The frames `queuedBy` counts for a step that runs a command. -/
theorem queuedBy_run {s u t : State} {i : Instr} (p : Nat) (hf : fetch s = .run i u) (hx : exec i u = .next t) :
    queuedBy p s = if u.port = p then queuedOn t.lastStatus i else [] := by
  cases i with
  | txPut h size payload => simp only [queuedBy, hf, hx, queuedOn]
  | _ => simp [queuedBy, hf, queuedOn]

theorem lastStatus_putPort {s : State} {q : Port} {k : Block} {os : List Output} {st : Byte} {r : List Byte}
    (hq : s.ports[s.port]? = some q) : (s.putPort ⟨k, os ++ [.response (st :: r)]⟩).lastStatus = some st := by
  simp only [State.lastStatus, State.putPort_port, putPort_self hq, List.getLast?_concat]

/-- What a command transmits on its instance. -/
theorem exec_transmitted {i : Instr} {s t : State} (h : exec i s = .next t) :
    ∃ q q', s.ports[s.port]? = some q ∧ t = s.putPort q' ∧ Transmitted s.params q q' (queuedOn t.lastStatus i) := by
  obtain ⟨q, e, hq, he, rfl⟩ := exec_eq_next.1 h
  refine ⟨q, _, hq, rfl, ?_⟩
  cases i with
  | enc n p => cases he; exact answer_transmitted _ q _
  | dec m b => cases he; exact answer_transmitted _ q _
  | rxByte b => exact rxByteEffect_transmitted he
  | rxReset => cases he; exact transmitted_of_queue_eq rfl rfl
  | txPut h size p =>
    obtain ⟨st, ho, hT⟩ := txPutEffect_transmitted he
    rw [ho] at hT ⊢
    simpa only [queuedOn, lastStatus_putPort hq, Option.some.injEq] using hT
  | txSend => exact txSendEffect_transmitted he
  | status => cases he; exact answer_transmitted _ q _

/-- An instance after one is put back comes from the one in its place: the selected one, or one that is as it was. -/
theorem putPort_ports_cases {s : State} {q q' r : Port} {p : Nat} (hq : s.ports[s.port]? = some q)
    (hr : (s.putPort q').ports[p]? = some r) :
    (p = s.port ∧ r = q') ∨ (p ≠ s.port ∧ s.ports[p]? = some r) := by
  by_cases hp : p = s.port
  · subst hp
    rw [putPort_self hq] at hr
    cases hr
    exact .inl ⟨rfl, rfl⟩
  · exact .inr ⟨hp, putPort_other hp ▸ hr⟩

/-- What is kept along a run without reset: the parameters, and on each instance the order of R58. -/
structure Follows (s t : State) (f : Nat → List Byte) : Prop where
  params : t.params = s.params
  ports : ∀ p q', t.ports[p]? = some q' → ∃ q, s.ports[p]? = some q ∧ Transmitted s.params q q' (f p)

theorem Follows.refl (s : State) : Follows s s fun _ => [] :=
  ⟨rfl, fun _ q' hq' => ⟨q', hq', .refl _ _⟩⟩

theorem Follows.trans {s u t : State} {f g : Nat → List Byte} (h₁ : Follows s u f) (h₂ : Follows u t g) :
    Follows s t fun p => f p ++ g p := by
  refine ⟨h₂.params.trans h₁.params, fun p q₂ hq₂ => ?_⟩
  obtain ⟨q₁, hq₁, hT₂⟩ := h₂.ports p q₂ hq₂
  obtain ⟨q, hq, hT₁⟩ := h₁.ports p q₁ hq₁
  exact ⟨q, hq, hT₁.trans (h₁.params ▸ hT₂)⟩

/-- One instance put back: it transmits `f`, and the others nothing. -/
theorem follows_putPort {s : State} {q q' : Port} {f : List Byte} (hq : s.ports[s.port]? = some q)
    (hT : Transmitted s.params q q' f) : Follows s (s.putPort q') fun p => if s.port = p then f else [] := by
  refine ⟨rfl, fun p r hr => ?_⟩
  rcases putPort_ports_cases hq hr with ⟨rfl, rfl⟩ | ⟨hp, hr⟩
  · exact ⟨q, hq, by simpa using hT⟩
  · exact ⟨r, hr, by simpa [Ne.symm hp] using Transmitted.refl _ r⟩

/-- A step without reset queues on each instance what `queuedBy` says, and keeps the order. The state `u` that the fetch gives has
the parameters and the instances of `s`, so what follows from `u` follows from `s`. -/
theorem step_follows {s t : State} (hn : noReset s.inputs = true) (h : step s = .next t) :
    Follows s t (queuedBy · s) ∧ noReset t.inputs = true := by
  rcases step_cases h with ⟨hf, rfl⟩ | ⟨u, hf, rfl⟩ | ⟨i, u, hf, hx⟩ | ⟨op, u, hf, hx⟩
  · have hq : (queuedBy · t) = fun _ => [] := by funext p; simp only [queuedBy, hf]
    exact ⟨hq ▸ .refl t, hn⟩
  · obtain ⟨rest, -, hin | ⟨n, packet, hin⟩⟩ := fetch_reset hf <;> simp [hin, noReset] at hn
  · have hq : (queuedBy · s) = fun p => if u.port = p then queuedOn t.lastStatus i else [] := by
      funext p; exact queuedBy_run p hf hx
    obtain ⟨-, n, packet, a, rest, hin, -, -, rfl⟩ := fetch_run hf
    obtain ⟨q, q', hp, rfl, hT⟩ := exec_transmitted hx
    obtain ⟨hparams, hports⟩ := follows_putPort hp hT
    exact ⟨hq ▸ ⟨hparams, hports⟩, by simpa [hin, noReset] using hn⟩
  · have hq : (queuedBy · s) = fun p => if u.port = p then [] else [] := by funext p; simp [queuedBy, hf]
    obtain ⟨n, packet, a, rest, hin, -, -, rfl⟩ := fetch_illegal hf
    obtain ⟨q, hp, rfl⟩ := execIllegal_eq_next.1 hx
    obtain ⟨hparams, hports⟩ := follows_putPort hp (answer_transmitted _ q _)
    exact ⟨hq ▸ ⟨hparams, hports⟩, by simpa [hin, noReset] using hn⟩

/-- A run without reset keeps the order: by induction on the number of steps. -/
theorem run_follows {n : Nat} {s t : State} (hn : noReset s.inputs = true)
    (h : Host.Core.run Sys2Proof.core n s = .next t) : Follows s t (queuedFrames · n s) := by
  induction n generalizing s with
  | zero => cases h; exact .refl _
  | succ n ih =>
    obtain ⟨u, hu, h⟩ := run_succ_eq_next.1 h
    obtain ⟨hsu, hnu⟩ := step_follows hn hu
    have hq : (queuedFrames · (n + 1) s) = fun p => queuedBy p s ++ queuedFrames p n u := by
      funext p; simp only [queuedFrames, hu]
    exact hq ▸ hsu.trans (ih hnu h)

/-! ### The statements of the family -/

/-- Settles O26: along a run each instance's emitted and queued bytes grow by the frames queued (`run_follows`); after reset
nothing is emitted or queued, so the bytes emitted begin those frames. -/
theorem transmitOrderIsQueueOrder : Obligations.TransmitOrderIsQueueOrder := by
  refine ⟨fun n p s t q q' Q Q' _ hn h hq hq' hQ hQ' => ?_, fun n p P is t q' _ hn h hq' => ?_⟩
  · have hF := run_follows hn h
    obtain ⟨q₀, hq₀, hT⟩ := hF.ports p q' hq'
    cases hq.symm.trans hq₀
    obtain ⟨Q₁, hQ₁, hbytes⟩ := hT Q hQ
    rw [hF.params] at hQ'
    cases hQ'.symm.trans hQ₁
    exact hbytes
  · obtain ⟨q, hq, hT⟩ := (run_follows hn h).ports p q' hq'
    obtain rfl := List.eq_of_mem_replicate (List.mem_of_getElem? hq)
    obtain ⟨Q', -, hbytes⟩ := hT [] rfl
    exact ⟨Q', hbytes⟩

/-- Settles O25: TX_SEND moves the head on and keeps the bytes of `tx_buf`. -/
theorem txSendLeavesRestQueued : Obligations.TxSendLeavesRestQueued := by
  intro s t q q' Q hq hQ h hq'
  have he : effectOf s.params s.port s.accept .txSend q.block = .ok _ := txSendEffect_ok hQ
  cases (exec_eq_next.2 ⟨q, _, hq, he, rfl⟩).symm.trans h
  rw [putPort_self hq] at hq'
  cases hq'
  exact dequeued_queue hQ (Nat.min_le_right _ _)

/-- Settles O44: each of the two steps reads and replaces its own instance alone, and replacements in different places commute. -/
theorem interleavingDoesNotMatter : Obligations.InterleavingDoesNotMatter := by
  intro s t n m a b p₁ p₂ rest hnm hin h
  obtain ⟨u, hu, ht⟩ := run_two_eq_next.1 h
  obtain ⟨hr, c₁, q₁, e₁, hd₁, hq₁, he₁, rfl⟩ := (step_command_eq_next hin).1 hu
  obtain ⟨-, c₂, q₂, e₂, hd₂, hq₂, he₂, rfl⟩ := (step_command_eq_next rfl).1 ht
  replace hq₂ : s.ports[m]? = some q₂ := (List.getElem?_set_ne hnm).symm.trans hq₂
  refine run_two_eq_next.2 ⟨_, (step_command_eq_next rfl).2 ⟨hr, c₂, q₂, e₂, hd₂, hq₂, he₂, rfl⟩,
    (step_command_eq_next rfl).2 ⟨hr, c₁, q₁, e₁, hd₁, (List.getElem?_set_ne hnm.symm).trans hq₁, he₁, ?_⟩⟩
  simp only [State.afterCommand, List.set_comm _ _ hnm]

/-- Settles O7: the command only answers, and the instance that is left has the same block, so it answers the same again. -/
theorem encDecStatusIdempotent : Obligations.EncDecStatusIdempotent := by
  intro s q i hq hi
  obtain ⟨r, hr⟩ := effectOf_answer (P := s.params) (port := s.port) (A := s.accept) q.block hi
  refine ⟨r, _, exec_of_answer hq hr, rfl, ?_⟩
  have hq' := putPort_self (p := { q with out := q.out ++ [.response r] }) hq
  exact (exec_of_answer hq' hr).trans (by simp [State.putPort])

/-- Settles O37: the first part is the step of a decoded packet; the second adds that the decoder undoes the encoder. -/
theorem stepRunsDecodedCommand : Obligations.StepRunsDecodedCommand :=
  ⟨fun _ _ _ _ _ _ hr hin hd => step_eq_execCommand hr hin hd,
    fun _ _ _ _ i hr hi hin => step_eq_execCommand hr hin (decodePacket_encode (c := .instr i) hi)⟩

end Sys2Proof.Machine

/-! PROOF. The encoding family (R70 to R87). This part: a packet's bytes, its length (R84) and its command determine each other, a
packet of another length is refused (I8), and the nibbles of `hdr1` (R77). -/

namespace Sys2Proof

/-! ### The length of a packet -/

/-- R84 reads a packet's length from its front: bytes behind it do not change the length. -/
theorem packetLength_append {bs : List Byte} {L : Nat} (rest : List Byte) (h : packetLength bs = some L) :
    packetLength (bs ++ rest) = some L := by
  unfold packetLength at h
  split at h
  · cases h
  · split at h
    -- the bytes end before the length operand
    case h_5 | h_6 | h_7 | h_8 => cases h
    all_goals
      rename_i ho
      simpa only [List.cons_append, packetLength, ho] using h

/-- The length R84 reads from a well-formed command's packet is the packet's length. -/
theorem packetLength_encode {c : Command} (hc : c.wf = true) : packetLength c.encode = some c.encode.length := by
  cases c with
  | illegal op =>
    have ho : Opcode.ofByte op = none := by simpa [Command.wf] using hc
    simp only [Command.encode, packetLength, ho, List.length_singleton]
  | instr i =>
    cases i with
    | enc n p => exact Laws.PacketLength.enc n p hc
    | dec m e => exact Laws.PacketLength.dec m e hc
    | rxByte b => exact Laws.PacketLength.rxByte b hc
    | rxReset => exact Laws.PacketLength.rxReset hc
    | txPut h n p => exact Laws.PacketLength.txPut h n p hc
    | txSend => exact Laws.PacketLength.txSend hc
    | status => exact Laws.PacketLength.status hc

/-- What decodes takes exactly the bytes R84 counts. -/
theorem packetLength_of_decode {bs rest : List Byte} {c : Command} (h : decode bs = .ok (c, rest)) :
    packetLength bs = some c.encode.length := by
  obtain ⟨rfl, hc⟩ := decode_cases h
  exact packetLength_append rest (packetLength_encode hc)

theorem takeBytes_eq_error {k : Nat} {bs : List Byte} {e : DecodeError} (h : takeBytes k bs = .error e) :
    e = .truncated ∧ bs.length < k := by
  unfold takeBytes at h
  split at h
  · rename_i hl
    cases h
    exact ⟨rfl, hl⟩
  · cases h

/-- The decoder fails only on too few bytes: fewer than the length R84 reads, if it can read one. -/
theorem decode_eq_error {bs : List Byte} {e : DecodeError} (h : decode bs = .error e) :
    e = .truncated ∧ ∀ L, packetLength bs = some L → bs.length < L := by
  unfold decode at h
  split at h
  · cases h
    exact ⟨rfl, nofun⟩
  · split at h
    -- no length operand: nothing can be missing
    case h_1 | h_2 | h_3 | h_4 | h_5 => cases h
    -- the data bytes of `ENC`, `DEC` and `TX_PUT`
    case h_6 | h_7 | h_8 =>
      rename_i ho
      split at h
      · rename_i ht
        cases h
        obtain ⟨he, hl⟩ := takeBytes_eq_error ht
        simp only [packetLength, ho, Option.some.injEq, forall_eq', List.length_cons]
        exact ⟨he, by omega⟩
      · cases h
    -- an operand byte is missing
    all_goals
      rename_i ho
      cases h
      simp [packetLength, ho]

/-! ### What a whole packet decodes to -/

/-- Without a length to read, or with fewer bytes than it says, the decoder answers `truncated`. -/
theorem decodePacket_truncated {bs : List Byte} (h : ∀ L, packetLength bs = some L → bs.length < L) :
    decodePacket bs = .error .truncated := by
  cases hd : decode bs with
  | error e =>
    obtain ⟨rfl, -⟩ := decode_eq_error hd
    simp only [decodePacket, hd]
  | ok r =>
    have hlt := h _ (packetLength_of_decode hd)
    rw [(decode_cases hd).1, List.length_append] at hlt
    omega

/-- With all the bytes of the length it reads, the decoder gives a command and leaves what is behind its packet. -/
theorem decode_of_packetLength {bs : List Byte} {L : Nat} (h : packetLength bs = some L) (hL : L ≤ bs.length) :
    ∃ c rest, decode bs = .ok (c, rest) ∧ bs.length = L + rest.length := by
  cases hd : decode bs with
  | error e => exact absurd ((decode_eq_error hd).2 L h) (Nat.not_lt.2 hL)
  | ok r =>
    obtain ⟨c, rest⟩ := r
    have hc : c.encode.length = L := Option.some.inj ((packetLength_of_decode hd).symm.trans h)
    exact ⟨c, rest, rfl, by rw [← hc, ← List.length_append, ← (decode_cases hd).1]⟩

theorem decodePacket_overlong {bs : List Byte} {L : Nat} (h : packetLength bs = some L) (hL : L < bs.length) :
    decodePacket bs = .error .overlong := by
  obtain ⟨c, rest, hd, hl⟩ := decode_of_packetLength h hL.le
  cases rest with
  | nil => simp only [List.length_nil] at hl; omega
  | cons b rest => simp only [decodePacket, hd]

theorem decodePacket_of_packetLength {bs : List Byte} (h : packetLength bs = some bs.length) :
    ∃ c, decodePacket bs = .ok c := by
  obtain ⟨c, rest, hd, hl⟩ := decode_of_packetLength h le_rfl
  obtain rfl : rest = [] := List.eq_nil_of_length_eq_zero (by omega)
  exact ⟨c, decodePacket_eq_ok.2 hd⟩

/-- A well-formed command's encoding, written out, decodes to it. -/
theorem decodePacket_of_encode_eq {bs : List Byte} {c : Command} (hc : c.wf = true) (h : c.encode = bs) :
    decodePacket bs = .ok c :=
  h ▸ decodePacket_encode hc

end Sys2Proof

namespace Sys2Proof.Machine

/-! ### A step that takes a packet -/

/-- A packet that does not decode is refused by the name of its error (I8). -/
theorem step_eq_refused {s : State} {n a : Nat} {packet : List Byte} {rest : List Input} {e : DecodeError}
    (hr : s.resetSeen = true) (hin : s.inputs = .command n packet a :: rest) (hd : decodePacket packet = .error e) :
    step s = .refused (refusalOf e) := by
  have hr' : ((s.withInputs rest).select n a).resetSeen = true := hr
  simp only [step, fetch, hin, fetchCommand, hr', hd, if_true]

/-- From the invariant a decoded packet does not fault. -/
theorem commandEffect_total {P : Params} {port A : Nat} {k : Block} (hk : k.Inv P) (c : Command) :
    ∃ e, commandEffect P port A c k = .ok e := by
  cases c with
  | instr i => exact effectOf_total hk i
  | illegal op => exact ⟨_, rfl⟩

/-- A packet that decodes answers next on every instance of a machine that meets the invariant. -/
theorem step_next_of_decodePacket {s : State} {n a : Nat} {packet : List Byte} {rest : List Input} {c : Command} (hs : s.Inv)
    (hr : s.resetSeen = true) (hin : s.inputs = .command n packet a :: rest) (hd : decodePacket packet = .ok c)
    (hn : n < s.params.numPorts) : ∃ t, step s = .next t := by
  obtain ⟨q, hq⟩ : ∃ q, s.ports[n]? = some q := ⟨_, List.getElem?_eq_getElem (hs.ports.symm ▸ hn)⟩
  obtain ⟨e, he⟩ := commandEffect_total (port := n) (A := a) (blockInv_of_port hs hq) c
  exact ⟨_, (step_command_eq_next hin).2 ⟨hr, c, q, e, hd, hq, he, rfl⟩⟩

/-! ### The nibbles of `hdr1` -/

theorem highNibble_append_lowNibble (h : Byte) : highNibble h ++ lowNibble h = h :=
  (BitVec.extractLsb'_append_extractLsb'_eq_extractLsb' rfl).trans BitVec.extractLsb'_eq_self

@[simp] theorem highNibble_append (x y : BitVec 4) : highNibble (x ++ y) = x := BitVec.extractLsb'_append_eq_left

@[simp] theorem lowNibble_append (x y : BitVec 4) : lowNibble (x ++ y) = y := BitVec.extractLsb'_append_eq_right

theorem toNat_nibbles (h : Byte) : h.toNat = (highNibble h).toNat * 16 + (lowNibble h).toNat := by
  conv_lhs => rw [← highNibble_append_lowNibble h]
  rw [BitVec.toNat_append, ← Nat.shiftLeft_add_eq_or_of_lt (lowNibble h).isLt, Nat.shiftLeft_eq]

/-- Splitting undoes packing (R77). -/
@[simp] theorem ifaceOf_packHdr1 (l : Hdr1Layout) (iface id : BitVec 4) : ifaceOf l (packHdr1 l iface id) = iface := by
  cases l
  · exact highNibble_append iface id
  · exact lowNibble_append id iface

@[simp] theorem idOf_packHdr1 (l : Hdr1Layout) (iface id : BitVec 4) : idOf l (packHdr1 l iface id) = id := by
  cases l
  · exact lowNibble_append iface id
  · exact highNibble_append id iface

/-- Packing undoes splitting (R77). -/
theorem packHdr1_ifaceOf_idOf (l : Hdr1Layout) (h : Byte) : packHdr1 l (ifaceOf l h) (idOf l h) = h := by
  cases l <;> exact highNibble_append_lowNibble h

/-! ### The statements about packets and nibbles -/

/-- Settles O33: the decoder reads back every well-formed command, one constructor at a time (`decode_encode_append`). -/
theorem decodeInvertsEncode : Obligations.DecodeInvertsEncode :=
  fun i rest hi => decode_encode_append (c := .instr i) hi rest

/-- Settles O34: the bytes are an encoding (`decode_cases`), and R84 reads the length of an encoding from its front. -/
theorem packetBytesAreDetermined : Obligations.PacketBytesAreDetermined := by
  intro bs rest c h
  obtain ⟨hbs, hc⟩ := decode_cases h
  exact ⟨hbs, hc, packetLength_of_decode h⟩

/-- Settles O36: the length R84 reads decides between the decoder's errors and a command, and a command completes from the
invariant. -/
theorem packetsOfWrongLengthAreRefused : Obligations.PacketsOfWrongLengthAreRefused := by
  intro s n a packet rest hr hin
  refine ⟨fun h => ?_, fun L h hL => ?_, fun L h hL => ?_, fun h hs hn => ?_⟩
  · exact step_eq_refused hr hin (decodePacket_truncated fun L hL => nomatch h.symm.trans hL)
  · refine step_eq_refused hr hin (decodePacket_truncated fun L' hL' => ?_)
    obtain rfl : L = L' := Option.some.inj (h.symm.trans hL')
    exact hL
  · exact step_eq_refused hr hin (decodePacket_overlong h hL)
  · obtain ⟨c, hd⟩ := decodePacket_of_packetLength h
    exact step_next_of_decodePacket hs hr hin hd hn

/-- Settles O35: each packet is the encoding of its command, which is well formed. -/
theorem tablePacketsDecode : Obligations.TablePacketsDecode := by
  refine ⟨?_, ?_, ?_, ?_, ?_, ?_, ?_, ?_⟩ <;> exact decodePacket_of_encode_eq rfl rfl

/-- Settles O48: the two nibbles are the whole byte. -/
theorem hdr1NibbleLayout : Obligations.Hdr1NibbleLayout :=
  ⟨toNat_nibbles, toNat_nibbles, packHdr1_ifaceOf_idOf,
    fun l iface id => ⟨ifaceOf_packHdr1 l iface id, idOf_packHdr1 l iface id⟩⟩

end Sys2Proof.Machine

/-! PROOF. The encoding family, frames on the wire (R76): the codec's round trip (R105), the bytes of a frame fed to a parser
(R131 to R136), the queue drained (R87), and the loopback of the two. -/

namespace Sys2Proof.Machine

/-! ### An instance put back -/

theorem putPort_putPort (s : State) (p p' : Port) : (s.putPort p).putPort p' = s.putPort p' := by
  simp [State.putPort]

theorem putPort_eq_self {s : State} {q : Port} (hq : s.ports[s.port]? = some q) : s.putPort q = s := by
  obtain ⟨hlt, rfl⟩ := List.getElem?_eq_some_iff.1 hq
  simp [State.putPort]

/-! ### The codec's round trip -/

theorem byteOf_ne_codecDelim {n : Nat} (h : 0 < n) (hn : n ≤ 255) : byteOf n ≠ Config.codecDelim := by
  intro he
  have hz := congrArg BitVec.toNat he
  rw [toNat_byteOf hn] at hz
  exact Nat.ne_of_gt h hz

theorem codecDelim_not_mem_cobsGroup {run : List Byte} (h : Config.codecDelim ∉ run) (hl : run.length ≤ 254) :
    Config.codecDelim ∉ cobsGroup run := by
  simp only [cobsGroup, List.mem_cons, not_or]
  exact ⟨(byteOf_ne_codecDelim (Nat.succ_pos _) (by omega)).symm, h⟩

/-- A group before others is read as its bytes and a zero. -/
theorem cobsDecodeLoop_cobsGroup_append {run e : List Byte} (hl : run.length ≤ 253) (he : e ≠ []) :
    cobsDecodeLoop (cobsGroup run ++ e).length (cobsGroup run ++ e) =
      (cobsDecodeLoop e.length e).map fun out => run ++ Config.codecDelim :: out := by
  have hc : (byteOf (run.length + 1)).toNat = run.length + 1 := toNat_byteOf (by omega)
  have hff : byteOf (run.length + 1) ≠ 0xFF := by
    intro hb
    have h255 : (0xFF : Byte).toNat = 255 := rfl
    rw [hb] at hc
    omega
  have hpos := List.length_pos_of_ne_nil he
  rw [cobsGroup, List.cons_append, List.length_cons, cobsDecodeLoop_group (by rw [hc, List.length_append]; omega) hff, hc]
  simp

/-- Decoding undoes encoding (R105), group by group. -/
theorem cobsDecode_cobsEncode {p : List Byte} (hp : p.length ≤ 254) : cobsDecode (cobsEncode p) = some p := by
  suffices h : Config.codecDelim ∉ cobsEncode p ∧ cobsDecodeLoop (cobsEncode p).length (cobsEncode p) = some p by
    rw [cobsDecode_of_not_mem h.1, h.2]
  induction hn : p.length using Nat.strong_induction_on generalizing p with
  | _ n ih =>
    rcases split_at_zero p with h0 | ⟨run, rest, h0, rfl⟩
    · rw [cobsEncode_of_not_mem h0]
      exact ⟨codecDelim_not_mem_cobsGroup h0 hp, cobsDecodeLoop_last (toNat_byteOf (by omega)).symm⟩
    · simp only [List.length_append, List.length_cons] at hp hn
      obtain ⟨hz, hd⟩ := ih rest.length (by omega) (p := rest) (by omega) rfl
      have hne : cobsEncode rest ≠ [] := List.ne_nil_of_length_pos (by rw [cobsEncode_length]; omega)
      rw [cobsEncode_append rest h0]
      refine ⟨by simp [hz, codecDelim_not_mem_cobsGroup h0 (by omega)], ?_⟩
      rw [cobsDecodeLoop_cobsGroup_append (by omega) hne, hd, Option.map_some]

/-! ### Bytes fed to an instance -/

/-- What `RX_BYTE` puts on the output ports when its arm leaves `a`. -/
def ArmEffect.outputs (a : ArmEffect) : List Output := a.out ++ [.response [StatusCode.ok.toByte, a.ev.toByte]]

/-- `RX_BYTE` of each byte in order takes instance `port` from block `k` to block `k'`, with `os` on its output ports. -/
inductive Feeds (P : Params) (port : Nat) : Block → List Byte → Block → List Output → Prop
  | nil (k : Block) : Feeds P port k [] k []
  | cons {k k' : Block} {b : Byte} {bs : List Byte} {a : ArmEffect} {os : List Output} (ha : rxByteArm P port b k = .ok a)
      (h : Feeds P port a.block bs k' os) : Feeds P port k (b :: bs) k' (a.outputs ++ os)

theorem exec_rxByte {s : State} {q : Port} {b : Byte} {a : ArmEffect} (hq : s.ports[s.port]? = some q)
    (ha : rxByteArm s.params s.port b q.block = .ok a) :
    exec (.rxByte b) s = .next (s.putPort ⟨a.block, q.out ++ a.outputs⟩) :=
  exec_eq_next.2 ⟨q, _, hq, rxByteEffect_eq_ok.2 ⟨a, ha, rfl⟩, rfl⟩

/-- `RX_FEED` of bytes that an instance takes. -/
theorem execAll_rxFeed {s : State} {q : Port} {bs : List Byte} {k : Block} {os : List Output}
    (hq : s.ports[s.port]? = some q) (h : Feeds s.params s.port q.block bs k os) :
    execAll (rxFeed bs) s = .next (s.putPort ⟨k, q.out ++ os⟩) := by
  induction bs generalizing s q os with
  | nil =>
    cases h
    rw [List.append_nil, putPort_eq_self hq]
    rfl
  | cons b bs ih =>
    cases h with
    | cons ha h =>
      rename_i a os
      have hrest := ih (s := s.putPort ⟨a.block, q.out ++ a.outputs⟩) (putPort_self hq) h
      simp only [rxFeed, List.map_cons, execAll, exec_rxByte hq ha]
      rw [putPort_putPort, List.append_assoc] at hrest
      exact hrest

/-! ### The bytes of a frame -/

/-- `[OK, EV_NONE]`, the response to a byte that ends no frame. -/
def noneResponse : Output := .response [0x00, 0x00]

/-- What the last byte of a frame puts on the output ports, `e` being its encoded payload (R135). -/
def frameEnd (P : Params) (port : Nat) (h size : Byte) (e : List Byte) : List Output :=
  match cobsDecode e with
  | none => [.response [0x00, 0x03]]
  | some r => [deliver P port h size r, .response [0x00, 0x01]]

section feeds
variable {P : Params} {port : Nat} {k k' : Block} {h size : Byte} {p e bs ys : List Byte} {os : List Output}

theorem frameEnd_cobsEncode (hp : p.length ≤ 254) :
    frameEnd P port h size (cobsEncode p) = [deliver P port h size p, .response [0x00, 0x01]] := by
  simp only [frameEnd, cobsDecode_cobsEncode hp]

theorem completed_block (m : Memory) :
    (completed P port k m e).block = { k with rxBuf := m, rxIdx := k.rxIdx + 1, ps := .waitForStart } := by
  unfold completed
  cases cobsDecode e <;> rfl

theorem completed_outputs (m : Memory) : (completed P port k m e).outputs = frameEnd P port k.hdr1 k.size e := by
  unfold completed frameEnd
  cases cobsDecode e <;> rfl

/-- The start byte and `hdr1` (R131, R132). -/
theorem Feeds.header (hps : k.ps = .waitForStart) (hf : Feeds P port { k with hdr1 := h, ps := .getSize } bs k' os) :
    Feeds P port k (Config.startByte :: h :: bs) k' (noneResponse :: noneResponse :: os) := by
  have hstart := rxByteArm_waitForStart (P := P) (port := port) (b := Config.startByte) hps
  have hhdr := rxByteArm_getHeader (P := P) (port := port) (b := h) (k := { k with ps := .getHeader }) rfl
  exact .cons hstart (.cons hhdr hf)

/-- Size 0 delivers the empty message (R133). -/
theorem feeds_size_zero (hps : k.ps = .getSize) (hcap : 1 ≤ P.rxCap) :
    Feeds P port k [0x00] { k with size := 0x00, ps := .waitForStart }
      [deliver P port k.hdr1 0x00 [], .response [0x00, 0x01]] := by
  have harm := rxByteArm_getSize (P := P) (port := port) (b := 0x00) hps
  have hz : (0x00 : Byte).toNat = 0 := rfl
  rw [armSize, if_neg (by omega), if_pos hz] at harm
  exact .cons harm (.nil _)

/-- A legal size that is not 0 opens the data phase (R133). -/
theorem Feeds.size_pos (hps : k.ps = .getSize) (h0 : size.toNat ≠ 0) (hs : size.toNat ≤ 254)
    (hcap : size.toNat + 1 ≤ P.rxCap) (hf : Feeds P port { k with size := size, rxIdx := 0, ps := .getData } bs k' os) :
    Feeds P port k (size :: bs) k' (noneResponse :: os) := by
  have harm := rxByteArm_getSize (P := P) (port := port) (b := size) hps
  rw [armSize, if_neg (by omega), if_neg h0] at harm
  exact .cons harm hf

/-- The data phase (R134, R135): with `e` received, the bytes that are missing complete the frame, by induction on them. -/
theorem feeds_data (hps : k.ps = .getData) (hcap : k.size.toNat + 1 ≤ P.rxCap)
    (he : bufReadAll .rxBuf P.rxCap k.rxBuf (List.range k.rxIdx) = .ok e) (hne : ys ≠ [])
    (hl : k.rxIdx + ys.length = k.size.toNat + 1) :
    ∃ m, Feeds P port k ys { k with rxBuf := m, rxIdx := k.size.toNat + 1, ps := .waitForStart }
      (List.replicate (ys.length - 1) noneResponse ++ frameEnd P port k.hdr1 k.size (e ++ ys)) := by
  induction ys generalizing k e with
  | nil => exact absurd rfl hne
  | cons b ys ih =>
    have hi : k.rxIdx < P.rxCap := by simp only [List.length_cons] at hl; omega
    have harm := rxByteArm_getData (P := P) (port := port) (b := b) hps
    rcases eq_or_ne ys [] with rfl | hys
    · have hn : k.rxIdx = k.size.toNat := by simpa using hl
      rw [armData_complete hi hn he] at harm
      have hf := Feeds.cons harm (.nil _)
      rw [completed_block, completed_outputs, List.append_nil, hn] at hf
      exact ⟨_, hf⟩
    · have hpos := List.length_pos_of_ne_nil hys
      rw [List.length_cons] at hl
      rw [armData_store hi (by omega)] at harm
      obtain ⟨m, hf⟩ := ih (k := { k with rxBuf := Memory.write k.rxBuf k.rxIdx b, rxIdx := k.rxIdx + 1 }) hps hcap
        (read_received hi he) hys (by simp only; omega)
      refine ⟨m, ?_⟩
      have hc := Feeds.cons harm hf
      rw [List.append_assoc, List.singleton_append] at hc
      rw [List.length_cons, show ys.length + 1 - 1 = ys.length - 1 + 1 by omega, List.replicate_succ]
      exact hc

/-- A whole frame, fed to a parser that waits for one, delivers its message at its last byte. -/
theorem feeds_frame (hps : k.ps = .waitForStart) (hs : size.toNat ≤ 254) (hp : p.length = size.toNat)
    (hcap : size.toNat + 1 ≤ P.rxCap) :
    ∃ m idx, Feeds P port k (frame h size p)
      { k with hdr1 := h, size := size, rxBuf := m, rxIdx := idx, ps := .waitForStart }
      (List.replicate ((frame h size p).length - 1) noneResponse ++ [deliver P port h size p, .response [0x00, 0x01]]) := by
  by_cases h0 : size = 0x00
  · subst h0
    obtain rfl : p = [] := List.eq_nil_of_length_eq_zero hp
    exact ⟨k.rxBuf, k.rxIdx, .header hps (feeds_size_zero rfl (by omega))⟩
  · have hpos : size.toNat ≠ 0 := fun hz => h0 (BitVec.eq_of_toNat_eq hz)
    have hlen := cobsEncode_length p
    obtain ⟨m, hf⟩ := feeds_data (P := P) (port := port)
      (k := { k with hdr1 := h, ps := .getData, size := size, rxIdx := 0 }) rfl hcap (e := []) rfl
      (List.ne_nil_of_length_pos (l := cobsEncode p) (by omega)) (by simp only; omega)
    rw [List.nil_append, frameEnd_cobsEncode (by omega)] at hf
    refine ⟨m, size.toNat + 1, ?_⟩
    have hw := Feeds.header (h := h) hps (.size_pos rfl hpos hs hcap hf)
    have hlf : (frame h size p).length - 1 = (cobsEncode p).length - 1 + 1 + 1 + 1 := by
      rw [length_frame hp, frameLen, if_neg hpos]; omega
    rw [hlf, frame, if_neg h0]
    exact hw

end feeds

/-- Settles O19: `RX_FEED` of the frame's bytes, which the parser takes as `feeds_frame` says. -/
theorem wholeFrameIsDelivered : Obligations.WholeFrameIsDelivered := by
  intro s q h size p _ hq hps hs hp hcap
  obtain ⟨m, idx, hf⟩ := feeds_frame (P := s.params) (port := s.port) (h := h) hps hs hp hcap
  refine ⟨m, idx, (execAll_rxFeed hq hf).trans ?_⟩
  rw [← List.append_assoc]
  rfl

/-! ### DRAIN -/

theorem deliveries_append (os os' : List Output) : deliveries (os ++ os') = deliveries os ++ deliveries os' := by
  induction os with
  | nil => rfl
  | cons o os ih => cases o <;> simp [deliveries, ih]

theorem deliveries_map_tx (bs : List Byte) : deliveries (bs.map .tx) = [] := by
  induction bs with
  | nil => rfl
  | cons b bs ih => exact ih

theorem deliveries_replicate_response (n : Nat) (r : List Byte) : deliveries (List.replicate n (.response r)) = [] := by
  induction n with
  | zero => rfl
  | succ n ih => exact ih

/-- What a `TX_SEND` of `n` bytes of the queue `Q` puts on the output ports (R172). -/
def sendOutputs (k : Block) (Q : List Byte) (n : Nat) : List Output :=
  (Q.take n).map .tx ++ [.response (sendResponse k n)]

@[simp] theorem txBytes_sendOutputs (k : Block) (Q : List Byte) (n : Nat) : txBytes (sendOutputs k Q n) = Q.take n := by
  simp only [sendOutputs, txBytes_append, txBytes_map_tx, txBytes, List.append_nil]

@[simp] theorem deliveries_sendOutputs (k : Block) (Q : List Byte) (n : Nat) : deliveries (sendOutputs k Q n) = [] := by
  simp only [sendOutputs, deliveries_append, deliveries_map_tx, deliveries, List.append_nil]

/-- The instance after a `TX_SEND` that takes `n` bytes of its queue `Q`. -/
def Port.sent (P : Params) (q : Port) (Q : List Byte) (n : Nat) : Port :=
  ⟨dequeued P q.block n, q.out ++ sendOutputs q.block Q n⟩

theorem exec_txSend {s : State} {q : Port} {Q : List Byte} (hq : s.ports[s.port]? = some q)
    (hQ : q.block.queue s.params = .ok Q) :
    exec .txSend s = .next (s.putPort (q.sent s.params Q (min s.accept q.block.txCount))) :=
  exec_eq_next.2 ⟨q, _, hq, txSendEffect_ok hQ, rfl⟩

/-- The status of a `TX_SEND` is OK exactly when it leaves the queue empty (R172). -/
theorem lastStatus_sent {s : State} {q : Port} {Q : List Byte} {n : Nat} (hq : s.ports[s.port]? = some q) :
    (s.putPort (q.sent s.params Q n)).lastStatus = some StatusCode.ok.toByte ↔ q.block.txCount - n = 0 := by
  rw [Port.sent, sendOutputs, sendResponse, ← List.append_assoc, lastStatus_putPort hq, Option.some.injEq]
  split
  · simp only [*]
  · simp only [*, iff_false]
    decide

/-- One send of `DRAIN`. -/
theorem drain_cons {s : State} {q : Port} {Q : List Byte} (a : Nat) (as : List Nat) (hq : s.ports[s.port]? = some q)
    (hQ : q.block.queue s.params = .ok Q) :
    drain (a :: as) s =
      if q.block.txCount - min a q.block.txCount = 0 then
        .next ((s.withAccept a).putPort (q.sent s.params Q (min a q.block.txCount)))
      else drain as ((s.withAccept a).putPort (q.sent s.params Q (min a q.block.txCount))) := by
  have hx := exec_txSend (s := s.withAccept a) hq hQ
  have hst := lastStatus_sent (s := s.withAccept a) (Q := Q) (n := min a q.block.txCount) hq
  simp only [State.withAccept_params, State.withAccept_accept] at hx hst
  simp only [drain, hx, hst]

/-- The instance after sends that empty its queue: `head` is where the ring starts, and `os` what they put on the output ports. -/
def Port.drained (q : Port) (head : Nat) (os : List Output) : Port :=
  ⟨{ q.block with txHead := head, txCount := 0 }, q.out ++ os⟩

section drained
variable (q : Port) (head : Nat) (os : List Output)

@[simp] theorem Port.drained_ps : (q.drained head os).block.ps = q.block.ps := rfl
@[simp] theorem Port.drained_txCount : (q.drained head os).block.txCount = 0 := rfl
@[simp] theorem Port.drained_out : (q.drained head os).out = q.out ++ os := rfl

end drained

/-- Sends that follow a send. -/
theorem Port.sent_drained (P : Params) (q : Port) (Q : List Byte) (n head : Nat) (os : List Output) :
    (q.sent P Q n).drained head os = q.drained head (sendOutputs q.block Q n ++ os) := by
  simp only [Port.drained, Port.sent, dequeued, List.append_assoc]

/-- A send of the whole queue empties it. -/
theorem sent_eq_drained {P : Params} {q : Port} {n : Nat} (Q : List Byte) (h : q.block.txCount - n = 0) :
    q.sent P Q n = q.drained ((q.block.txHead + n) % P.txCap) (sendOutputs q.block Q n) := by
  rw [Port.sent, dequeued, h, Port.drained]

/-- `DRAIN` with as many offers of at least one byte as there are bytes queued empties the queue: by induction on the offers,
each of which sends a byte or finds the queue empty. -/
theorem drain_empties {as : List Nat} {s : State} {q : Port} {Q : List Byte} (hq : s.ports[s.port]? = some q)
    (hQ : q.block.queue s.params = .ok Q) (has : ∀ a ∈ as, 1 ≤ a) (hc : q.block.txCount ≤ as.length) :
    ∃ accept head os,
      drain as s = .next ((s.withAccept accept).putPort (q.drained head os)) ∧ txBytes os = Q ∧ deliveries os = [] := by
  induction as generalizing s q Q with
  | nil =>
    have h0 : q.block.txCount = 0 := Nat.le_zero.1 hc
    obtain rfl : Q = [] := List.eq_nil_of_length_eq_zero ((queue_length hQ).trans h0)
    refine ⟨s.accept, q.block.txHead, [], ?_, rfl, rfl⟩
    rw [Port.drained, ← h0, List.append_nil]
    exact congrArg _ (putPort_eq_self hq).symm
  | cons a as ih =>
    have hl : Q.length = q.block.txCount := queue_length hQ
    have ha : 1 ≤ a := has a (by simp)
    rw [drain_cons a as hq hQ]
    split
    · rename_i hz
      refine ⟨a, _, _, by rw [sent_eq_drained Q hz], ?_, ?_⟩
      · rw [txBytes_sendOutputs, List.take_of_length_le (by omega)]
      · exact deliveries_sendOutputs _ _ _
    · rename_i hz
      rw [List.length_cons] at hc
      obtain ⟨accept, head, os, hd, htx, hdel⟩ := ih
        (s := (s.withAccept a).putPort (q.sent s.params Q (min a q.block.txCount))) (putPort_self hq)
        (dequeued_queue hQ (Nat.min_le_right _ _)) (fun x hx => has x (by simp [hx]))
        (show q.block.txCount - min a q.block.txCount ≤ as.length by omega)
      refine ⟨accept, head, sendOutputs q.block Q (min a q.block.txCount) ++ os, hd.trans ?_, ?_, ?_⟩
      · rw [Port.sent_drained]
        exact congrArg _ (putPort_putPort (s.withAccept accept) _ _)
      · rw [txBytes_append, txBytes_sendOutputs, htx, List.take_append_drop]
      · rw [deliveries_append, deliveries_sendOutputs, hdel, List.append_nil]

/-- Settles O29: the queue's bytes are the ones `drain_empties` puts on the port. -/
theorem drainEmptiesQueue : Obligations.DrainEmptiesQueue := by
  intro s q Q as hq hQ has hc
  obtain ⟨accept, head, os, hd, htx, hdel⟩ := drain_empties hq hQ has hc
  refine ⟨_, _, hd, putPort_self (s := s.withAccept accept) hq, rfl, ?_, ?_⟩
  · rw [Port.drained_out, txBytes_append, htx]
  · rw [Port.drained_out, deliveries_append, hdel, List.append_nil]

/-! ### The loopback -/

/-- The frame `PUT_MSG` queues (R87, R170). -/
def msgFrame (P : Params) (iface id : BitVec 4) (p : List Byte) : List Byte :=
  frame (packHdr1 P.hdr1Layout iface id) (byteOf p.length) p

section message
variable {P : Params} {iface id : BitVec 4} {p : List Byte}

theorem length_msgFrame (hp : p.length ≤ 254) : (msgFrame P iface id p).length = frameLen p.length := by
  have hsz : (byteOf p.length).toNat = p.length := toNat_byteOf (by omega)
  rw [msgFrame, length_frame hsz.symm, hsz]

/-- `PUT_MSG` on an instance with room for the frame. -/
theorem exec_putMsg {s : State} {q : Port} (hq : s.ports[s.port]? = some q) (hp : p.length ≤ 254)
    (hroom : (msgFrame s.params iface id p).length ≤ s.params.txCap - q.block.txCount) :
    exec (putMsg s.params iface id p) s =
      .next (s.putPort ⟨queued s.params q.block (msgFrame s.params iface id p), q.out ++ [.response [0x00]]⟩) := by
  have hsz : (byteOf p.length).toNat ≠ 255 := by rw [toNat_byteOf (by omega)]; omega
  have he : effectOf s.params s.port s.accept (putMsg s.params iface id p) q.block = .ok _ := txPutEffect_ok hsz hroom
  exact exec_eq_next.2 ⟨q, _, hq, he, rfl⟩

/-- `PUT_MSG` on an instance with an empty queue, then `DRAIN`: the frame leaves, and the parser is as it was. -/
theorem putMsg_drain {s : State} {q : Port} {as : List Nat} (hq : s.ports[s.port]? = some q) (h0 : q.block.txCount = 0)
    (hp : p.length ≤ 254) (hcap : frameLen p.length ≤ s.params.txCap) (has : ∀ a ∈ as, 1 ≤ a)
    (hlen : frameLen p.length ≤ as.length) :
    ∃ t accept q', exec (putMsg s.params iface id p) s = .next t ∧ drain as t = .next ((s.withAccept accept).putPort q') ∧
      q'.block.ps = q.block.ps ∧ txBytes q'.out = txBytes q.out ++ msgFrame s.params iface id p ∧
      deliveries q'.out = deliveries q.out := by
  have hf : (msgFrame s.params iface id p).length = frameLen p.length := length_msgFrame hp
  have hpos : 3 ≤ (msgFrame s.params iface id p).length := frame_length_pos
  have hroom : (msgFrame s.params iface id p).length ≤ s.params.txCap - q.block.txCount := by omega
  have hQ : (queued s.params q.block (msgFrame s.params iface id p)).queue s.params = .ok (msgFrame s.params iface id p) :=
    queued_queue hroom (by omega) (by rw [Block.queue, h0]; rfl)
  have hc : (queued s.params q.block (msgFrame s.params iface id p)).txCount ≤ as.length := by
    show q.block.txCount + (msgFrame s.params iface id p).length ≤ as.length
    omega
  obtain ⟨accept, head, os, hd, htx, hdel⟩ := drain_empties
    (q := ⟨queued s.params q.block (msgFrame s.params iface id p), q.out ++ [.response [0x00]]⟩) (putPort_self hq) hQ has hc
  have hd' := hd.trans (congrArg _ (putPort_putPort (s.withAccept accept) _ _))
  refine ⟨_, accept, _, exec_putMsg hq hp hroom, hd', rfl, ?_, ?_⟩
  · simp only [Port.drained_out, txBytes_append, txBytes, htx, List.append_nil]
  · simp only [Port.drained_out, deliveries_append, deliveries, hdel, List.append_nil]

/-- A message's frame, fed to a parser that waits for one, delivers the message with its interface and identifier. -/
theorem feeds_msgFrame {port : Nat} {k : Block} (hps : k.ps = .waitForStart) (hp : p.length ≤ 254)
    (hcap : p.length + 1 ≤ P.rxCap) :
    ∃ k' os, Feeds P port k (msgFrame P iface id p) k' os ∧ deliveries os =
      [{ port := port, hdr1 := packHdr1 P.hdr1Layout iface id, iface := iface, id := id, size := byteOf p.length,
         payload := p }] := by
  have hsz : (byteOf p.length).toNat = p.length := toNat_byteOf (by omega)
  obtain ⟨m, idx, hf⟩ := feeds_frame (port := port) (h := packHdr1 P.hdr1Layout iface id) hps (hsz.trans_le hp) hsz.symm
    (hsz.symm ▸ hcap)
  refine ⟨_, _, hf, ?_⟩
  rw [deliveries_append, noneResponse, deliveries_replicate_response]
  simp [deliver, deliveries]

end message

/-- Settles O30: the frame of the message leaves `a` (`putMsg_drain`), whose parser is as it was; so the parser of `b` waits,
whether or not `b` is `a`, and delivers the frame (`feeds_msgFrame`). -/
theorem loopbackDeliversMessage : Obligations.LoopbackDeliversMessage := by
  intro s a b qa qb iface id p as _ hqa hqb h0 hps hp htxCap hrxCap has hlen
  obtain ⟨t, accept, qu, hput, hdrain, hpsu, htx, hdel⟩ :=
    putMsg_drain (s := s.select a 0) (iface := iface) (id := id) hqa h0 hp htxCap has hlen
  have hqu : (((s.select a 0).withAccept accept).putPort qu).ports[a]? = some qu :=
    putPort_self (s := (s.select a 0).withAccept accept) hqa
  obtain ⟨qb', hqb', hpsb, hdelb⟩ : ∃ qb', (((s.select a 0).withAccept accept).putPort qu).ports[b]? = some qb' ∧
      qb'.block.ps = .waitForStart ∧ deliveries qb'.out = deliveries qb.out := by
    rcases eq_or_ne b a with rfl | hba
    · obtain rfl : qa = qb := Option.some.inj (hqa.symm.trans hqb)
      exact ⟨qu, hqu, hpsu.trans hps, hdel⟩
    · exact ⟨qb, (putPort_other hba).trans hqb, hps, rfl⟩
  obtain ⟨k, os, hfeed, hdelf⟩ := feeds_msgFrame (P := s.params) (port := b) (iface := iface) (id := id) hpsb hp hrxCap
  refine ⟨t, _, _, qu, _, msgFrame s.params iface id p, hput, hdrain, hqu, htx,
    execAll_rxFeed (s := State.select _ b 0) hqb' hfeed, putPort_self (s := State.select _ b 0) hqb', ?_⟩
  rw [deliveries_append, hdelb, hdelf]
  rfl

end Sys2Proof.Machine

/-! PROOF. The codec family (R100 to R105): how the decoder reads a buffer's first group, that encoding undoes decoding, and what
`ENC` and `DEC` answer. The encoder's equations are in the codec's laws; `cobsDecode_cobsEncode` is proved with the frames. -/

namespace Sys2Proof.Machine

variable {c : Byte} {r e p : List Byte}

/-! ### The first group of a buffer -/

/-- A first group that runs past the end. -/
theorem cobsDecode_overrun (h : r.length + 1 < c.toNat) (h0 : Config.codecDelim ∉ c :: r) : cobsDecode (c :: r) = none :=
  (cobsDecode_of_not_mem h0).trans (cobsDecodeLoop_overrun h)

/-- A first group that is the last. -/
theorem cobsDecode_last (h : r.length + 1 = c.toNat) (h0 : Config.codecDelim ∉ c :: r) : cobsDecode (c :: r) = some r :=
  (cobsDecode_of_not_mem h0).trans (cobsDecodeLoop_last h)

/-- A first group with another behind it: at these lengths its code byte is not 0xFF, so it stands for a zero. -/
theorem cobsDecode_group (hl : r.length + 1 ≤ 255) (h : c.toNat < r.length + 1) (h0 : Config.codecDelim ∉ c :: r) :
    cobsDecode (c :: r) =
      (cobsDecode (r.drop (c.toNat - 1))).map fun out => r.take (c.toNat - 1) ++ [Config.codecDelim] ++ out := by
  have hff : c ≠ 0xFF := by
    rintro rfl
    exact absurd (show 255 < r.length + 1 from h) (by omega)
  have hd : Config.codecDelim ∉ r.drop (c.toNat - 1) := fun hm => h0 (.tail c (List.mem_of_mem_drop hm))
  rw [cobsDecode_of_not_mem h0, cobsDecode_of_not_mem hd]
  exact cobsDecodeLoop_group h hff

/-- A buffer that decodes is one last group, or a group and a buffer that decodes. -/
theorem cobsDecode_cons_eq_some (hl : r.length + 1 ≤ 255) (h : cobsDecode (c :: r) = some p) :
    (r.length + 1 = c.toNat ∧ p = r) ∨
    (c.toNat < r.length + 1 ∧ ∃ out, cobsDecode (r.drop (c.toNat - 1)) = some out ∧
      p = r.take (c.toNat - 1) ++ Config.codecDelim :: out) := by
  have h0 := not_mem_of_cobsDecode h
  rcases Nat.lt_trichotomy (r.length + 1) c.toNat with hlt | heq | hgt
  · rw [cobsDecode_overrun hlt h0] at h
    cases h
  · rw [cobsDecode_last heq h0] at h
    exact .inl ⟨heq, (Option.some.inj h).symm⟩
  · rw [cobsDecode_group hl hgt h0, Option.map_eq_some_iff] at h
    obtain ⟨out, hout, rfl⟩ := h
    exact .inr ⟨hgt, out, hout, by simp⟩

/-! ### Encoding undoes decoding -/

/-- A code byte and the bytes it counts are the group of those bytes. -/
theorem cobsGroup_of_length {run : List Byte} (h : run.length + 1 = c.toNat) : cobsGroup run = c :: run := by
  rw [cobsGroup, h, byteOf_toNat]

/-- Encoding undoes decoding (R105), group by group. -/
theorem cobsEncode_of_cobsDecode (hne : e ≠ []) (hl : e.length ≤ 255) (h : cobsDecode e = some p) : cobsEncode p = e := by
  induction hn : e.length using Nat.strong_induction_on generalizing e p with
  | _ n ih =>
    cases e with
    | nil => exact absurd rfl hne
    | cons c r =>
      obtain ⟨hc0, hr0⟩ := not_or.1 (List.mem_cons.not.1 (not_mem_of_cobsDecode h))
      rw [List.length_cons] at hl hn
      rcases cobsDecode_cons_eq_some hl h with ⟨hc, rfl⟩ | ⟨hc, out, hout, rfl⟩
      · rw [cobsEncode_of_not_mem hr0, cobsGroup_of_length hc]
      · have hpos : c.toNat ≠ 0 := fun hz => hc0 (BitVec.eq_of_toNat_eq hz.symm)
        have hlen : (r.drop (c.toNat - 1)).length = r.length - (c.toNat - 1) := List.length_drop
        have hrest : cobsEncode out = r.drop (c.toNat - 1) :=
          ih _ (by omega) (List.ne_nil_of_length_pos (by omega)) (by omega) hout rfl
        have hgroup : cobsGroup (r.take (c.toNat - 1)) = c :: r.take (c.toNat - 1) :=
          cobsGroup_of_length (by rw [List.length_take]; omega)
        rw [cobsEncode_append out fun hm => hr0 (List.mem_of_mem_take hm), hgroup, hrest, List.cons_append,
          List.take_append_drop]

/-- A decoded buffer is one byte longer than its payload. -/
theorem length_of_cobsDecode (hne : e ≠ []) (hl : e.length ≤ 255) (h : cobsDecode e = some p) : p.length + 1 = e.length := by
  rw [← cobsEncode_length, cobsEncode_of_cobsDecode hne hl h]

/-! ### The first code byte -/

theorem findIdx_codecDelim_of_not_mem (h : Config.codecDelim ∉ p) : p.findIdx (· == Config.codecDelim) = p.length :=
  List.findIdx_eq_length_of_false fun _ hb => beq_eq_false_iff_ne.2 fun he => h (he ▸ hb)

theorem findIdx_codecDelim_append {run rest : List Byte} (h : Config.codecDelim ∉ run) :
    (run ++ Config.codecDelim :: rest).findIdx (· == Config.codecDelim) = run.length := by
  simp [List.findIdx_append, findIdx_codecDelim_of_not_mem h, List.findIdx_cons]

/-- The first code byte counts the bytes before the first zero. -/
theorem head?_cobsEncode (p : List Byte) :
    (cobsEncode p).head? = some (byteOf (1 + p.findIdx (· == Config.codecDelim))) := by
  rcases split_at_zero p with h | ⟨run, rest, h, rfl⟩
  · rw [cobsEncode_of_not_mem h, findIdx_codecDelim_of_not_mem h, Nat.add_comm]
    rfl
  · rw [cobsEncode_append rest h, findIdx_codecDelim_append h, Nat.add_comm]
    rfl

/-! ### The responses of ENC and DEC -/

theorem byteOf_toNat_add_one (b : Byte) : byteOf (b.toNat + 1) = b + 1 := by
  simp [byteOf, BitVec.ofNat_add]

theorem byteOf_of_add_one {n : Nat} {b : Byte} (h : n + 1 = b.toNat) : byteOf n = b - 1 := by
  rw [← byteOf_toNat b, ← h]
  simp [byteOf, BitVec.ofNat_add]

theorem toNat_lt_one_iff (b : Byte) : b.toNat < 1 ↔ b = 0x00 := by
  rw [Nat.lt_one_iff, ← BitVec.toNat_inj]
  rfl

/-- The length operands `ENC` does not take (R102). -/
theorem encLength_error_iff (n : Byte) : (n.toNat < 1 ∨ 254 < n.toNat) ↔ n = 0x00 ∨ n = 0xFF := by
  refine or_congr (toNat_lt_one_iff n) ?_
  have h255 : (0xFF : Byte).toNat = 255 := rfl
  have hlt := n.isLt
  rw [← BitVec.toNat_inj, h255]
  omega

theorem encResponse_eq (n : Byte) (p : List Byte) :
    encResponse n p = if n = 0x00 ∨ n = 0xFF then [0x01, 0x00] else [0x00, n + 1] ++ cobsEncode p := by
  simp only [encResponse, encLength_error_iff, byteOf_toNat_add_one]
  rfl

/-- The decoded length `DEC` answers is `m - 1` (R103). -/
theorem decResponse_eq {m : Byte} (hm : e.length = m.toNat) :
    decResponse m e =
      if m = 0x00 then [0x01, 0x00]
      else match cobsDecode e with
        | none => [0x02, 0x00]
        | some r => [0x00, m - 1] ++ r := by
  simp only [decResponse, toNat_lt_one_iff]
  by_cases h0 : m = 0x00
  · rw [if_pos h0, if_pos h0]
    rfl
  · rw [if_neg h0, if_neg h0]
    cases hd : cobsDecode e with
    | none => rfl
    | some r =>
      have hne : e ≠ [] := fun he => h0 ((toNat_lt_one_iff m).1 (by simp [← hm, he]))
      have hlen : r.length + 1 = m.toNat := (length_of_cobsDecode hne (by have := m.isLt; omega) hd).trans hm
      simp only [byteOf_of_add_one hlen]
      rfl

/-! ### The statements of the family -/

/-- Settles O4: each direction goes along the groups (`cobsDecode_cobsEncode`, `cobsEncode_of_cobsDecode`); the length of what is
decoded is read off its encoding. -/
theorem cobsRoundTripAndCanonical : Obligations.CobsRoundTripAndCanonical := by
  refine ⟨fun p _ hp => cobsDecode_cobsEncode hp, fun e p hpos hl h => ?_, fun e p hpos hl h => ?_⟩
  · exact Nat.eq_sub_of_add_eq (length_of_cobsDecode (List.ne_nil_of_length_pos hpos) hl h)
  · exact cobsEncode_of_cobsDecode (List.ne_nil_of_length_pos (by omega)) hl h

/-- Settles O1: the encoder's equations for its first group; a payload that ends in a zero leaves the empty rest, whose encoding
is the virtual zero's group. -/
theorem cobsEncodeCutsAtZeros : Obligations.CobsEncodeCutsAtZeros :=
  ⟨fun _ _ _ h => cobsEncode_of_not_mem h, fun _ rest h _ _ => cobsEncode_append rest h, fun _ h _ => cobsEncode_append [] h, rfl⟩

/-- Settles O2: the decoder's equations for its first group. -/
theorem cobsDecodeReadsGroups : Obligations.CobsDecodeReadsGroups :=
  ⟨fun _ _ _ h => cobsDecode_of_mem h,
    fun _ _ hl h0 => ⟨fun h => cobsDecode_overrun h h0, fun h => cobsDecode_last h h0, fun h => cobsDecode_group hl h h0⟩, rfl⟩

/-- Settles O3: an encoding has no zero because it decodes. -/
theorem cobsEncodeLengthAndDelimiter : Obligations.CobsEncodeLengthAndDelimiter :=
  fun p _ hp => ⟨cobsEncode_length p, not_mem_of_cobsDecode (cobsDecode_cobsEncode hp), head?_cobsEncode p⟩

/-- Settles O6: DEC only answers. -/
theorem decAnswersDecodedPayload : Obligations.DecAnswersDecodedPayload := by
  intro s q m e hq hm
  rw [exec_of_answer hq rfl, decResponse_eq hm]
  rfl

/-- Settles O5: ENC only answers. -/
theorem encAnswersEncodedPayload : Obligations.EncAnswersEncodedPayload := by
  intro s q n p hq _
  rw [exec_of_answer hq rfl, encResponse_eq]
  rfl

end Sys2Proof.Machine

/-! PROOF. The parser family (R130 to R144): what RX_BYTE does in each parser state, frames fed in parts, frames cut short, and
commands of other kinds between the bytes. What an instance does with bytes is said by `Feeds`, which the frames' part defines. -/

namespace Sys2Proof.Machine

/-! ### The bytes of `rx_buf` -/

theorem Memory.read_write (m : Memory) (i j : Nat) (v : Byte) :
    Memory.read (Memory.write m i v) j = if j = i then some v else Memory.read m j := by
  split
  · rename_i h
    rw [h, Memory.read_write_same]
  · rename_i h
    exact Memory.read_write_other v h

/-- A buffer that holds `e` from its front reads as `e`. -/
theorem bufReadAll_range {buf : BufName} {cap : Nat} {m : Memory} {e : List Byte} (hcap : e.length ≤ cap)
    (h : ∀ i < e.length, Memory.read m i = e[i]?) : bufReadAll buf cap m (List.range e.length) = .ok e := by
  refine bufReadAll_eq_ok_iff.2 ⟨fun i hi => (List.mem_range.1 hi).trans_le hcap, ?_⟩
  refine List.ext_getElem (by simp) fun i _ hi => ?_
  have hi' : i < e.length := by simpa using hi
  simp [h i hi', hi']

section arms
variable {P : Params} {port : Nat} {b : Byte} {k : Block} {a : ArmEffect}

/-! ### The arms that R130 chooses from -/

theorem armWait_start : armWait Config.startByte k = { block := { k with ps := .getHeader }, ev := .none, out := [] } :=
  if_pos rfl

theorem armWait_other (h : b ≠ Config.startByte) : armWait b k = { block := k, ev := .none, out := [] } := if_neg h

theorem armSize_drop (h : b.toNat = 255 ∨ P.rxCap < b.toNat + 1) :
    armSize P port b k = { block := { k with size := b, ps := .waitForStart }, ev := .dropSize, out := [] } :=
  if_pos h

/-- The guard of R133 never fires for size 0. -/
theorem armSize_empty (hcap : 1 ≤ P.rxCap) :
    armSize P port 0x00 k =
      { block := { k with size := 0x00, ps := .waitForStart }, ev := .deliver, out := [deliver P port k.hdr1 0x00 []] } := by
  have h0 : (0x00 : Byte).toNat = 0 := rfl
  rw [armSize, if_neg (by omega), if_pos h0]

theorem armSize_data (h0 : b ≠ 0x00) (hs : b.toNat ≠ 255) (hcap : b.toNat + 1 ≤ P.rxCap) :
    armSize P port b k = { block := { k with size := b, rxIdx := 0, ps := .getData }, ev := .none, out := [] } := by
  have hpos : b.toNat ≠ 0 := fun hz => h0 (BitVec.eq_of_toNat_eq hz)
  rw [armSize, if_neg (by omega), if_neg hpos]

/-- The sizes of R133 in three: dropped, empty, and those with a data phase. -/
theorem size_cases (P : Params) (b : Byte) :
    (b.toNat = 255 ∨ P.rxCap < b.toNat + 1) ∨ b = 0x00 ∨ (b ≠ 0x00 ∧ b.toNat ≠ 255 ∧ b.toNat + 1 ≤ P.rxCap) := by
  by_cases h : b.toNat = 255 ∨ P.rxCap < b.toNat + 1
  · exact .inl h
  · by_cases h0 : b = 0x00
    · exact .inr (.inl h0)
    · exact .inr (.inr ⟨h0, by omega, by omega⟩)

theorem toNat_eq_255_iff (b : Byte) : b.toNat = 255 ↔ b = 0xFF :=
  (BitVec.toNat_inj (x := b) (y := 0xFF))

theorem Event.toByte_le (ev : Event) : ev.toByte.toNat ≤ 3 := by cases ev <;> decide

theorem Event.toByte_ne_one {ev : Event} (h : ev ≠ .deliver) : ev.toByte ≠ 0x01 := by
  cases ev with
  | deliver => exact absurd rfl h
  | none => decide
  | dropSize => decide
  | dropDecode => decide

/-- In GET_DATA the byte is stored at `rx_idx`, and the parser stays there exactly when the byte is not the last (R134, R135). -/
theorem getData_stores_and_stays_iff (hps : k.ps = .getData) (ha : rxByteArm P port b k = .ok a) :
    Memory.read a.block.rxBuf k.rxIdx = some b ∧ (a.block.ps = .getData ↔ k.rxIdx ≠ k.size.toNat) := by
  rcases rxByteArm_cases ha with ⟨hp, -⟩ | ⟨hp, -⟩ | ⟨hp, -⟩ | ⟨-, -, hn, rfl⟩ | ⟨-, -, hn, e, rfl⟩
  · cases hp.symm.trans hps
  · cases hp.symm.trans hps
  · cases hp.symm.trans hps
  · exact ⟨Memory.read_write_same _ _ _, iff_of_true hps hn⟩
  · rw [completed_block]
    exact ⟨Memory.read_write_same _ _ _, iff_of_false nofun (not_not_intro hn)⟩

end arms

/-! ### One byte -/

/-- Settles O8: by the two cases of `armWait`, the start byte and any other. -/
theorem rxByteWaitForStart : Obligations.RxByteWaitForStart := by
  intro s q b hq hps
  rw [exec_rxByte hq (rxByteArm_waitForStart hps)]
  by_cases hb : b = 0x73
  · subst hb
    rfl
  · rw [if_neg hb, armWait_other hb]
    rfl

/-- Settles O9: `armHeader` has one case. -/
theorem rxByteGetHeader : Obligations.RxByteGetHeader :=
  fun _ _ _ hq hps => exec_rxByte hq (rxByteArm_getHeader hps)

/-- Settles O10: by the three cases of `armSize` (`armSize_drop`, `armSize_empty`, `armSize_data`). -/
theorem rxByteGetSize : Obligations.RxByteGetSize := by
  intro s q b hq hps hcap
  have hx := exec_rxByte hq (rxByteArm_getSize (P := s.params) (port := s.port) (b := b) hps)
  refine ⟨fun h => ?_, fun h => ?_, fun h0 hff hfit => ?_⟩
  · rw [hx, armSize_drop (h.imp_left (toNat_eq_255_iff b).2)]
    rfl
  · subst h
    rw [hx, armSize_empty hcap]
    rfl
  · rw [hx, armSize_data h0 (fun h => hff ((toNat_eq_255_iff b).1 h)) hfit]
    rfl

/-- Settles O11: by the two cases of the data arm, `armData_store` and `armData_complete`; a decoded buffer is one byte longer than its
payload (`length_of_cobsDecode`). -/
theorem rxByteGetData : Obligations.RxByteGetData := by
  refine ⟨fun s q b hq hps hi hn => ?_, fun s q b e hq hps hs hcap hi hl he => ⟨?_, fun r hr => ?_⟩⟩
  · have harm := rxByteArm_getData (P := s.params) (port := s.port) (b := b) hps
    rw [armData_store hi hn] at harm
    exact ⟨_, exec_rxByte hq harm, fun i => Memory.read_write _ _ i b⟩
  · have hread : bufReadAll .rxBuf s.params.rxCap q.block.rxBuf (List.range q.block.rxIdx) = .ok e := by
      rw [hi, ← hl]
      exact bufReadAll_range (by omega) he
    have harm := rxByteArm_getData (P := s.params) (port := s.port) (b := b) hps
    rw [armData_complete (by omega) hi hread] at harm
    have hx := exec_rxByte hq harm
    rw [completed_block, completed_outputs, hi] at hx
    exact ⟨_, hx, fun i => by rw [hi, Memory.read_write]⟩
  · have hlen := length_of_cobsDecode (e := e ++ [b]) (by simp) (by simp; omega) hr
    simpa [hl] using hlen

/-- Settles O12: from the invariant the arm does not fault (`rxByteArm_total`), and its outputs and its FIFO are known in every case. -/
theorem rxByteAlwaysAnswersOk : Obligations.RxByteAlwaysAnswersOk := by
  intro s q b hs hq
  obtain ⟨a, ha⟩ := rxByteArm_total (port := s.port) (b := b) (blockInv_of_port hs hq)
  refine ⟨a.block, a.ev.toByte, a.out, ?_, a.ev.toByte_le, ?_, rxByteArm_fifo ha⟩
  · rw [exec_rxByte hq ha, List.append_assoc]
    rfl
  · rcases rxByteArm_out ha with ⟨hev, ho⟩ | ⟨hev, hd, sz, r, ho⟩
    · exact .inl ⟨Event.toByte_ne_one hev, ho⟩
    · exact .inr ⟨congrArg Event.toByte hev, _, ho, rfl⟩

/-- Settles O13: the arm of each state takes the byte as its own; `size_cases` says which sizes open the data phase. -/
theorem startByteInsideFrameIsData : Obligations.StartByteInsideFrameIsData := by
  intro s q hs hq
  refine ⟨fun hps => ?_, fun hps => ?_, fun hps b => ?_⟩
  · exact ⟨_, _, exec_rxByte hq (rxByteArm_getHeader hps), rfl, rfl⟩
  · refine ⟨_, _, exec_rxByte hq (rxByteArm_getSize hps), ?_⟩
    have h73 : (0x73 : Byte).toNat = 115 := rfl
    rcases size_cases s.params 0x73 with h | h | ⟨h0, hff, hcap⟩
    · rw [armSize_drop h]
      exact ⟨rfl, iff_of_false nofun (by omega)⟩
    · exact absurd h (by decide)
    · rw [armSize_data h0 hff hcap]
      exact ⟨rfl, iff_of_true rfl hcap⟩
  · obtain ⟨a, ha⟩ := rxByteArm_total (port := s.port) (b := b) (blockInv_of_port hs hq)
    exact ⟨_, _, exec_rxByte hq ha, getData_stores_and_stays_iff hps ha⟩

/-- RX_RESET on its instance (R138). -/
theorem exec_rxReset {s : State} {q : Port} (hq : s.ports[s.port]? = some q) :
    exec .rxReset s = .next (s.putPort ⟨rxResetBlock q.block, q.out ++ [.response [0x00]]⟩) :=
  exec_eq_next.2 ⟨q, _, hq, rfl, rfl⟩

/-- Settles O14: RX_RESET is `rxResetBlock`. -/
theorem rxResetResetsParser : Obligations.RxResetResetsParser := fun _ _ hq => exec_rxReset hq

/-! ### Bytes fed in parts -/

section feeds
variable {P : Params} {port : Nat} {k k' k₂ : Block} {b : Byte} {bs ys : List Byte} {a : ArmEffect} {os os' : List Output}

theorem Feeds.append (h : Feeds P port k bs k' os) (h' : Feeds P port k' ys k₂ os') :
    Feeds P port k (bs ++ ys) k₂ (os ++ os') := by
  induction h with
  | nil k => exact h'
  | cons ha _ ih =>
    rw [List.append_assoc]
    exact .cons ha (ih h')

/-- From the invariant an instance takes all bytes, and keeps the invariant. -/
theorem feeds_total (port : Nat) (hk : k.Inv P) (bs : List Byte) : ∃ k' os, Feeds P port k bs k' os ∧ k'.Inv P := by
  induction bs generalizing k with
  | nil => exact ⟨k, [], .nil k, hk⟩
  | cons b bs ih =>
    obtain ⟨a, ha⟩ := rxByteArm_total (port := port) (b := b) hk
    obtain ⟨k', os, hf, hk'⟩ := ih (rxByteArm_keeps hk ha)
    exact ⟨k', _, .cons ha hf, hk'⟩

/-- Bytes that are no start byte do nothing between frames (R131). -/
theorem feeds_gap (hps : k.ps = .waitForStart) (hgap : Config.startByte ∉ bs) :
    Feeds P port k bs k (List.replicate bs.length noneResponse) := by
  induction bs with
  | nil => exact .nil k
  | cons b bs ih =>
    obtain ⟨hb, hbs⟩ := not_or.1 (List.mem_cons.not.1 hgap)
    have harm := rxByteArm_waitForStart (P := P) (port := port) (b := b) hps
    rw [armWait_other (Ne.symm hb)] at harm
    exact .cons harm (ih hbs)

/-- Bytes of the data phase before its last one are stored, and no more happens (R134). -/
theorem feeds_partial_data (hps : k.ps = .getData) (hcap : k.size.toNat + 1 ≤ P.rxCap)
    (hl : k.rxIdx + ys.length ≤ k.size.toNat) :
    ∃ m, Feeds P port k ys { k with rxBuf := m, rxIdx := k.rxIdx + ys.length } (List.replicate ys.length noneResponse) := by
  induction ys generalizing k with
  | nil => exact ⟨k.rxBuf, .nil k⟩
  | cons b ys ih =>
    rw [List.length_cons] at hl
    have harm := rxByteArm_getData (P := P) (port := port) (b := b) hps
    rw [armData_store (by omega) (by omega)] at harm
    obtain ⟨m, hf⟩ := ih (k := { k with rxBuf := Memory.write k.rxBuf k.rxIdx b, rxIdx := k.rxIdx + 1 }) hps hcap
      (by simp only; omega)
    have hc := Feeds.cons harm hf
    simp only [Nat.add_assoc, Nat.add_comm 1] at hc
    exact ⟨m, hc⟩

end feeds

theorem execAll_cons {i : Instr} (is : List Instr) {s t : State} (h : exec i s = .next t) :
    execAll (i :: is) s = execAll is t := by
  simp only [execAll, h]

theorem execAll_append {is : List Instr} (js : List Instr) {s t : State} (h : execAll is s = .next t) :
    execAll (is ++ js) s = execAll js t := by
  induction is generalizing s with
  | nil => cases h; rfl
  | cons i is ih =>
    simp only [List.cons_append, execAll] at h ⊢
    split at h
    · exact ih h
    · cases h
    · cases h

theorem rxFeed_append (bs ys : List Byte) : rxFeed (bs ++ ys) = rxFeed bs ++ rxFeed ys := List.map_append

/-- Bytes fed, an RX_RESET, and bytes fed to the parser it leaves. -/
theorem execAll_rxFeed_rxReset_rxFeed {s : State} {q : Port} {bs ys : List Byte} {k₁ k₂ : Block} {os₁ os₂ : List Output}
    (hq : s.ports[s.port]? = some q) (h₁ : Feeds s.params s.port q.block bs k₁ os₁)
    (h₂ : Feeds s.params s.port (rxResetBlock k₁) ys k₂ os₂) :
    execAll (rxFeed bs ++ [.rxReset] ++ rxFeed ys) s =
      .next (s.putPort ⟨k₂, q.out ++ os₁ ++ [.response [0x00]] ++ os₂⟩) := by
  have hfeed := execAll_rxFeed (s := s.putPort ⟨rxResetBlock k₁, q.out ++ os₁ ++ [.response [0x00]]⟩) (putPort_self hq) h₂
  rw [putPort_putPort] at hfeed
  rw [List.append_assoc, execAll_append _ (execAll_rxFeed hq h₁), List.singleton_append,
    execAll_cons _ (exec_rxReset (putPort_self hq)), putPort_putPort]
  exact hfeed

/-- Settles O18: the bytes `ys` are those `feeds_data` says the frame is missing, and what follows them meets the state they
leave. -/
theorem dataPhaseTakesNextBytesAsItsOwn : Obligations.DataPhaseTakesNextBytesAsItsOwn := by
  intro s q e ys hs hq hps hl he hsize
  obtain ⟨-, -, hcap, hidx⟩ := (blockInv_of_port hs hq).getData hps
  have hread : bufReadAll .rxBuf s.params.rxCap q.block.rxBuf (List.range q.block.rxIdx) = .ok e :=
    hl ▸ bufReadAll_range (by omega) he
  obtain ⟨m, hf⟩ := feeds_data (port := s.port) hps hcap hread (List.ne_nil_of_length_pos (l := ys) (by omega)) (hl ▸ hsize)
  have hx := execAll_rxFeed hq hf
  rw [← List.append_assoc] at hx
  refine ⟨m, _, rfl, fun zs => ?_⟩
  rw [rxFeed_append]
  exact execAll_append _ hx

/-! ### A frame cut short -/

/-- A list of responses delivers nothing. -/
theorem deliveries_replicate_noneResponse (n : Nat) : deliveries (List.replicate n noneResponse) = [] :=
  deliveries_replicate_response n _

section cut
variable {P : Params} {port : Nat} {k : Block} {h₁ size₁ h size : Byte} {part rest gap p : List Byte}

/-- A whole frame fed to a parser that waits for one delivers its message alone. -/
theorem feeds_frame_deliveries (hps : k.ps = .waitForStart) (hs : size.toNat ≤ 254) (hp : p.length = size.toNat)
    (hcap : size.toNat + 1 ≤ P.rxCap) :
    ∃ k' os, Feeds P port k (frame h size p) k' os ∧ deliveries os =
      [{ port := port, hdr1 := h, iface := ifaceOf P.hdr1Layout h, id := idOf P.hdr1Layout h, size := size, payload := p }] := by
  obtain ⟨m, idx, hf⟩ := feeds_frame (port := port) (h := h) hps hs hp hcap
  refine ⟨_, _, hf, ?_⟩
  rw [deliveries_append, deliveries_replicate_noneResponse]
  rfl

/-- The header of a frame with a data phase (R131 to R133). -/
theorem feeds_header (hps : k.ps = .waitForStart) (h0 : 1 ≤ size₁.toNat) (hs : size₁.toNat ≤ 254)
    (hcap : size₁.toNat + 1 ≤ P.rxCap) :
    Feeds P port k [Config.startByte, h₁, size₁] { k with hdr1 := h₁, size := size₁, rxIdx := 0, ps := .getData }
      [noneResponse, noneResponse, noneResponse] :=
  .header hps (.size_pos rfl (Nat.ne_of_gt h0) hs hcap (.nil _))

/-- A frame cut short delivers nothing. -/
theorem feeds_cut_frame (hps : k.ps = .waitForStart) (h0 : 1 ≤ size₁.toNat) (hs : size₁.toNat ≤ 254)
    (hcap : size₁.toNat + 1 ≤ P.rxCap) (hl : part.length < size₁.toNat + 1) :
    ∃ k' os, Feeds P port k ([Config.startByte, h₁, size₁] ++ part) k' os ∧ deliveries os = [] := by
  obtain ⟨m, hf⟩ := feeds_partial_data (P := P) (port := port) (ys := part)
    (k := { k with hdr1 := h₁, size := size₁, rxIdx := 0, ps := .getData }) rfl hcap (by simp only; omega)
  refine ⟨_, _, (feeds_header hps h0 hs hcap).append hf, ?_⟩
  rw [deliveries_append, deliveries_replicate_noneResponse]
  rfl

/-- A frame cut short that is completed with bytes that fail to decode delivers nothing, and the parser waits again. -/
theorem feeds_malformed_frame (hps : k.ps = .waitForStart) (h0 : 1 ≤ size₁.toNat) (hs : size₁.toNat ≤ 254)
    (hcap : size₁.toNat + 1 ≤ P.rxCap) (hl : part.length = size₁.toNat + 1) (hd : cobsDecode part = none) :
    ∃ k' os, Feeds P port k ([Config.startByte, h₁, size₁] ++ part) k' os ∧ k'.ps = .waitForStart ∧ deliveries os = [] := by
  obtain ⟨m, hf⟩ := feeds_data (P := P) (port := port) (e := []) (ys := part)
    (k := { k with hdr1 := h₁, size := size₁, rxIdx := 0, ps := .getData }) rfl hcap rfl
    (List.ne_nil_of_length_pos (by omega)) (by simp only; omega)
  rw [List.nil_append, frameEnd, hd] at hf
  refine ⟨_, _, (feeds_header hps h0 hs hcap).append hf, rfl, ?_⟩
  rw [deliveries_append, deliveries_append, deliveries_replicate_noneResponse]
  rfl

end cut

/-- Settles O20: (a) after RX_RESET, and (b) after the cut frame's end and the gap, the parser waits for the valid frame, and
nothing has been delivered. -/
theorem resynchronizationCases : Obligations.ResynchronizationCases := by
  intro s q h₁ size₁ part h size p _ hq hps h0 hs₁ hcap₁ hl hs hp hcap
  refine ⟨?_, fun rest gap hrest hd hgap => ?_⟩
  · obtain ⟨k₁, os₁, hf₁, hdel₁⟩ := feeds_cut_frame (port := s.port) (h₁ := h₁) hps h0 hs₁ hcap₁ hl
    obtain ⟨k₂, os₂, hf₂, hdel₂⟩ := feeds_frame_deliveries (P := s.params) (port := s.port) (k := rxResetBlock k₁) (h := h)
      rfl hs hp hcap
    refine ⟨_, _, execAll_rxFeed_rxReset_rxFeed hq hf₁ hf₂, putPort_self hq, ?_⟩
    simp only [deliveries_append, hdel₁, hdel₂, deliveries, List.append_nil]
  · obtain ⟨k₁, os₁, hf₁, hps₁, hdel₁⟩ := feeds_malformed_frame (port := s.port) (h₁ := h₁) (part := part ++ rest) hps h0 hs₁
      hcap₁ (by rw [List.length_append, hrest]) hd
    obtain ⟨k₂, os₂, hf₂, hdel₂⟩ := feeds_frame_deliveries (P := s.params) (port := s.port) (h := h) hps₁ hs hp hcap
    have hf := (hf₁.append (feeds_gap hps₁ hgap)).append hf₂
    rw [← List.append_assoc _ part rest] at hf
    refine ⟨_, _, execAll_rxFeed hq hf, putPort_self hq, ?_⟩
    simp only [deliveries_append, hdel₁, hdel₂, deliveries_replicate_noneResponse, List.append_nil, List.nil_append]

/-! ### The end of a frame, from any state -/

/-- What the last byte of a frame puts on the output ports: one delivery and event 1, or event 2 or 3 alone (R142). -/
def IsFrameEnd (os : List Output) : Prop :=
  ∃ (ev : Byte) (ds : List Output), os = ds ++ [.response [0x00, ev]] ∧
    ((ev = 0x01 ∧ ∃ r, ds = [.delivery r]) ∨ ((ev = 0x02 ∨ ev = 0x03) ∧ ds = []))

/-- Some first bytes of `bs` end the frame an instance is inside: all but the last answer `[00 00]`. -/
def EndsFrame (P : Params) (port : Nat) (k : Block) (bs : List Byte) : Prop :=
  ∃ (n : Nat) (k' : Block) (os : List Output), n < bs.length ∧
    Feeds P port k (bs.take (n + 1)) k' (List.replicate n noneResponse ++ os) ∧ k'.ps = .waitForStart ∧ IsFrameEnd os

section frameEnds
variable {P : Params} {port : Nat} {k : Block} {b : Byte} {bs : List Byte} {a : ArmEffect}

theorem isFrameEnd_frameEnd (h size : Byte) (e : List Byte) : IsFrameEnd (frameEnd P port h size e) := by
  unfold frameEnd
  cases cobsDecode e with
  | none => exact ⟨0x03, [], rfl, .inr ⟨.inr rfl, rfl⟩⟩
  | some r => exact ⟨0x01, [deliver P port h size r], rfl, .inl ⟨rfl, _, rfl⟩⟩

/-- A byte that ends no frame, before bytes that do. -/
theorem EndsFrame.cons (ha : rxByteArm P port b k = .ok a) (ho : a.outputs = [noneResponse])
    (h : EndsFrame P port a.block bs) : EndsFrame P port k (b :: bs) := by
  obtain ⟨n, k', os, hn, hf, hps, he⟩ := h
  have hc := Feeds.cons ha hf
  rw [ho] at hc
  exact ⟨n + 1, k', os, Nat.succ_lt_succ hn, hc, hps, he⟩

/-- A byte that ends the frame. -/
theorem EndsFrame.of_last (bs : List Byte) (ha : rxByteArm P port b k = .ok a) (hps : a.block.ps = .waitForStart)
    (he : IsFrameEnd a.outputs) : EndsFrame P port k (b :: bs) := by
  have hf := Feeds.cons ha (.nil _)
  rw [List.append_nil] at hf
  exact ⟨0, _, _, Nat.succ_pos _, hf, hps, he⟩

/-- The bytes that are missing end the data phase (R134, R135). -/
theorem endsFrame_getData {e : List Byte} (hps : k.ps = .getData) (hcap : k.size.toNat + 1 ≤ P.rxCap)
    (hidx : k.rxIdx ≤ k.size.toNat) (he : bufReadAll .rxBuf P.rxCap k.rxBuf (List.range k.rxIdx) = .ok e)
    (hl : k.size.toNat - k.rxIdx < bs.length) : EndsFrame P port k bs := by
  have htake : (bs.take (k.size.toNat - k.rxIdx + 1)).length = k.size.toNat - k.rxIdx + 1 :=
    List.length_take_of_le hl
  obtain ⟨m, hf⟩ := feeds_data (port := port) hps hcap he (List.ne_nil_of_length_pos (by rw [htake]; omega))
    (by rw [htake]; omega)
  rw [htake, Nat.add_sub_cancel] at hf
  exact ⟨_, _, _, hl, hf, rfl, isFrameEnd_frameEnd _ _ _⟩

/-- The size byte ends the frame, or at most 255 bytes behind it do (R133). -/
theorem endsFrame_getSize (hps : k.ps = .getSize) (hcap : 1 ≤ P.rxCap) (hl : 255 ≤ bs.length) :
    EndsFrame P port k (b :: bs) := by
  have harm := rxByteArm_getSize (P := P) (port := port) (b := b) hps
  rcases size_cases P b with h | rfl | ⟨h0, hff, hfit⟩
  · rw [armSize_drop h] at harm
    exact .of_last bs harm rfl ⟨0x02, [], rfl, .inr ⟨.inl rfl, rfl⟩⟩
  · rw [armSize_empty hcap] at harm
    exact .of_last bs harm rfl ⟨0x01, _, rfl, .inl ⟨rfl, _, rfl⟩⟩
  · rw [armSize_data h0 hff hfit] at harm
    have hb := b.isLt
    exact .cons harm rfl (endsFrame_getData rfl hfit (Nat.zero_le _) (e := []) rfl (by simp only; omega))

/-- Inside a frame 257 bytes end it, whatever they are. -/
theorem endsFrame_of_length (hP : 1 ≤ P.rxCap) (hk : k.Inv P) (hps : k.ps ≠ .waitForStart) (hl : bs.length = 257) :
    EndsFrame P port k bs := by
  cases hp : k.ps with
  | waitForStart => exact absurd hp hps
  | getHeader =>
    obtain ⟨b, bs, rfl⟩ := List.exists_cons_of_length_pos (l := bs) (by omega)
    rw [List.length_cons] at hl
    obtain ⟨c, bs, rfl⟩ := List.exists_cons_of_length_pos (l := bs) (by omega)
    rw [List.length_cons] at hl
    exact .cons (rxByteArm_getHeader hp) rfl (endsFrame_getSize rfl hP (by omega))
  | getSize =>
    obtain ⟨b, bs, rfl⟩ := List.exists_cons_of_length_pos (l := bs) (by omega)
    rw [List.length_cons] at hl
    exact endsFrame_getSize hp hP (by omega)
  | getData =>
    obtain ⟨-, hs, hcap, hidx⟩ := hk.getData hp
    obtain ⟨e, he⟩ := hk.received hp
    exact endsFrame_getData hp hcap hidx he (by omega)

/-- Between frames bytes without a start byte, then one: the parser is inside a frame, and nothing is delivered. -/
theorem feeds_gap_start (hps : k.ps = .waitForStart) (hgap : Config.startByte ∉ bs) :
    Feeds P port k (bs ++ [Config.startByte]) { k with ps := .getHeader }
      (List.replicate bs.length noneResponse ++ [noneResponse]) := by
  have harm := rxByteArm_waitForStart (P := P) (port := port) (b := Config.startByte) hps
  rw [armWait_start] at harm
  exact (feeds_gap hps hgap).append (.cons harm (.nil _))

end frameEnds

theorem one_le_rxCap {P : Params} (hP : P.wf = true) : 1 ≤ P.rxCap := by
  simp only [Params.wf, Bool.and_eq_true, decide_eq_true_eq] at hP
  omega

/-- Settles O16: a parser that waits needs no byte, and one inside a frame ends it (`endsFrame_of_length`). -/
theorem parserRecoversWithin257Bytes : Obligations.ParserRecoversWithin257Bytes := by
  refine ⟨fun s q bs hs hq hl => ?_, fun s q gap _ hq hps hgap => ?_⟩
  · by_cases hps : q.block.ps = .waitForStart
    · exact ⟨0, s, q, Nat.zero_le _, rfl, hq, hps, fun h => absurd hps h⟩
    · obtain ⟨n, k', os, hn, hf, hps', ev, ds, rfl, hev⟩ :=
        endsFrame_of_length (port := s.port) (one_le_rxCap hs.params) (blockInv_of_port hs hq) hps hl
      refine ⟨n + 1, _, _, by omega, execAll_rxFeed hq hf, putPort_self hq, hps', fun _ => ⟨ev, ds, Nat.succ_pos n, ?_, hev⟩⟩
      simp only [List.append_assoc]
      rfl
  · refine ⟨_, _, execAll_rxFeed hq (feeds_gap_start hps hgap), putPort_self hq, rfl, ?_⟩
    rw [deliveries_append, deliveries_append, deliveries_replicate_noneResponse]
    exact List.append_nil _

/-! ### Commands that leave the parser alone -/

/-- The parser registers and `rx_buf` of one instance are those of another (R130, R141). -/
structure SameParser (k k' : Block) : Prop where
  ps : k'.ps = k.ps
  hdr1 : k'.hdr1 = k.hdr1
  size : k'.size = k.size
  rxIdx : k'.rxIdx = k.rxIdx
  rxBuf : k'.rxBuf = k.rxBuf

theorem SameParser.refl (k : Block) : SameParser k k := ⟨rfl, rfl, rfl, rfl, rfl⟩

theorem SameParser.symm {k k' : Block} (h : SameParser k k') : SameParser k' k :=
  ⟨h.ps.symm, h.hdr1.symm, h.size.symm, h.rxIdx.symm, h.rxBuf.symm⟩

theorem SameParser.trans {k k' k₂ : Block} (h : SameParser k k') (h' : SameParser k' k₂) : SameParser k k₂ :=
  ⟨h'.ps.trans h.ps, h'.hdr1.trans h.hdr1, h'.size.trans h.size, h'.rxIdx.trans h.rxIdx, h'.rxBuf.trans h.rxBuf⟩

/-- The command is one of the parser's, `RX_BYTE` or `RX_RESET` (R141). -/
def IsParserCommand (c : Command) : Prop := c = .instr .rxReset ∨ ∃ b, c = .instr (.rxByte b)

section others
variable {P : Params} {port A : Nat} {c : Command} {k k' k₂ : Block} {e : Effect} {bs : List Byte} {os : List Output}

/-- A command that is not the parser's leaves the parser and delivers nothing. -/
theorem commandEffect_keeps_parser (hc : ¬ IsParserCommand c) (he : commandEffect P port A c k = .ok e) :
    SameParser k e.block ∧ deliveries e.out = [] := by
  cases c with
  | illegal op => cases he; exact ⟨.refl k, rfl⟩
  | instr i =>
    cases i with
    | enc n p => cases he; exact ⟨.refl k, rfl⟩
    | dec m b => cases he; exact ⟨.refl k, rfl⟩
    | rxByte b => exact absurd (.inr ⟨b, rfl⟩) hc
    | rxReset => exact absurd (.inl rfl) hc
    | txPut h size p =>
      rcases txPutEffect_cases P h size p k with ⟨-, ho⟩ | ⟨-, -, ho⟩ | ⟨-, -, ho⟩ <;> cases ho.symm.trans he
      · exact ⟨.refl k, rfl⟩
      · exact ⟨.refl k, rfl⟩
      · exact ⟨⟨rfl, rfl, rfl, rfl, rfl⟩, rfl⟩
    | txSend =>
      obtain ⟨bs, -, rfl⟩ := txSendEffect_eq_ok he
      exact ⟨⟨rfl, rfl, rfl, rfl, rfl⟩, by simp only [deliveries_append, deliveries_map_tx, deliveries, List.append_nil]⟩
    | status => cases he; exact ⟨.refl k, rfl⟩

/-- A well-formed packet's command keeps the invariant of its instance. -/
theorem commandEffect_keeps (hk : k.Inv P) (hc : c.wf = true) (he : commandEffect P port A c k = .ok e) :
    e.block.Inv P := by
  cases c with
  | illegal op => cases he; exact hk
  | instr i => exact effectOf_keeps hk hc he

/-- The same bytes do the same to the same parser, whatever its FIFO (`rxByteArm_congr`). -/
theorem Feeds.congr (h : Feeds P port k bs k' os) (hk : SameParser k k₂) :
    ∃ k₂', Feeds P port k₂ bs k₂' os ∧ SameParser k' k₂' := by
  induction h generalizing k₂ with
  | nil k => exact ⟨k₂, .nil k₂, hk⟩
  | @cons _ _ _ _ a _ ha _ ih =>
    have ha₂ := rxByteArm_congr ha hk.ps hk.hdr1 hk.size hk.rxIdx hk.rxBuf
    obtain ⟨k₂', hf, hk'⟩ := ih
      (k₂ := { a.block with txBuf := k₂.txBuf, txHead := k₂.txHead, txCount := k₂.txCount }) ⟨rfl, rfl, rfl, rfl, rfl⟩
    have hc := Feeds.cons ha₂ hf
    exact ⟨k₂', hc, hk'⟩

end others

/-- A command that changes `ps` of an instance is one of the parser's, presented to that instance (R141). -/
theorem isParserCommand_of_ps_ne {c : Command} {u t : State} {n : Nat} {q q' : Port} (hx : execCommand c u = .next t)
    (hq : u.ports[n]? = some q) (hq' : t.ports[n]? = some q') (hne : q'.block.ps ≠ q.block.ps) :
    u.port = n ∧ IsParserCommand c := by
  rw [execCommand_eq_onPort] at hx
  obtain ⟨p, e, hp, he, rfl⟩ := onPort_eq_next.1 hx
  rcases putPort_ports_cases hp hq' with ⟨rfl, rfl⟩ | ⟨-, hsame⟩
  · obtain rfl : p = q := Option.some.inj (hp.symm.trans hq)
    exact ⟨rfl, by_contra fun hc => hne (commandEffect_keeps_parser hc he).1.ps⟩
  · obtain rfl : q = q' := Option.some.inj (hq.symm.trans hsame)
    exact absurd rfl hne

/-- Settles O15: a step that is no reset runs a command on the instances as they are, so `isParserCommand_of_ps_ne` says which. -/
theorem onlyParserCommandsChangePs : Obligations.OnlyParserCommandsChangePs := by
  intro s t n q q' h hq hq' hne
  rcases step_cases h with ⟨-, rfl⟩ | ⟨u, hf, -⟩ | ⟨i, u, hf, hx⟩ | ⟨op, u, hf, hx⟩
  · obtain rfl : q = q' := Option.some.inj (hq.symm.trans hq')
    exact absurd rfl hne
  · exact .inl ⟨u, hf⟩
  · have hu : u.ports = s.ports := by
      obtain ⟨-, _, _, _, _, -, -, -, rfl⟩ := fetch_run hf
      rfl
    obtain ⟨hn, hc⟩ := isParserCommand_of_ps_ne (c := .instr i) hx (hu ▸ hq) hq' hne
    exact .inr ⟨i, u, hf, hn, by simpa [IsParserCommand] using hc⟩
  · have hu : u.ports = s.ports := by
      obtain ⟨_, _, _, _, -, -, -, rfl⟩ := fetch_illegal hf
      rfl
    obtain ⟨-, hc⟩ := isParserCommand_of_ps_ne (c := .illegal op) hx (hu ▸ hq) hq' hne
    simp [IsParserCommand] at hc

/-! ### Chunks and the commands between them -/

/-- Commands that are not the parser's, one after the other, with the transport's offers: each answers next, and the parser of the
instance stays as it was. -/
theorem execOffers_keeps_parser {cs : List (Nat × Command)} {s : State} {q : Port} (hq : s.ports[s.port]? = some q)
    (hk : q.block.Inv s.params) (hcs : ∀ c ∈ cs, c.2.wf = true ∧ ¬ IsParserCommand c.2) :
    ∃ accept q', execOffers cs s = .next ((s.withAccept accept).putPort q') ∧ q'.block.Inv s.params ∧
      SameParser q.block q'.block ∧ deliveries q'.out = deliveries q.out := by
  induction cs generalizing s q with
  | nil => exact ⟨s.accept, q, congrArg _ (putPort_eq_self hq).symm, hk, .refl _, rfl⟩
  | cons c cs ih =>
    obtain ⟨a, c⟩ := c
    obtain ⟨hwf, hc⟩ := hcs (a, c) (by simp)
    obtain ⟨e, he⟩ := commandEffect_total (port := s.port) (A := a) hk c
    have hx : execCommand c (s.withAccept a) = .next ((s.withAccept a).putPort ⟨e.block, q.out ++ e.out⟩) := by
      rw [execCommand_eq_onPort]
      exact onPort_next (s := s.withAccept a) hq he
    obtain ⟨hsame, hdel⟩ := commandEffect_keeps_parser hc he
    obtain ⟨accept, q', ho, hk', hsame', hdel'⟩ := ih (s := (s.withAccept a).putPort ⟨e.block, q.out ++ e.out⟩)
      (putPort_self (s := s.withAccept a) hq) (commandEffect_keeps hk hwf he) fun d hd => hcs d (by simp [hd])
    refine ⟨accept, q', ?_, hk', hsame.trans hsame', ?_⟩
    · simp only [execOffers, hx, ho]
      exact congrArg _ (putPort_putPort (s.withAccept accept) _ _)
    · rw [hdel', deliveries_append, hdel, List.append_nil]

/-- Chunks with other commands after each: the parser is left as by the bytes of all chunks, and the deliveries are theirs. By
induction on the chunks: the commands after one leave the parser, which takes the next bytes as it would without them. -/
theorem feedChunks_feeds {parts : List (List Byte × List (Nat × Command))} {s : State} {q : Port}
    (hq : s.ports[s.port]? = some q) (hk : q.block.Inv s.params)
    (hparts : ∀ x ∈ parts, ∀ c ∈ x.2, c.2.wf = true ∧ ¬ IsParserCommand c.2) :
    ∃ accept q' k os, feedChunks parts s = .next ((s.withAccept accept).putPort q') ∧
      Feeds s.params s.port q.block (parts.flatMap Prod.fst) k os ∧
      SameParser k q'.block ∧ deliveries q'.out = deliveries q.out ++ deliveries os := by
  induction parts generalizing s q with
  | nil =>
    exact ⟨s.accept, q, q.block, [], congrArg _ (putPort_eq_self hq).symm, .nil _, .refl _, (List.append_nil _).symm⟩
  | cons x parts ih =>
    obtain ⟨chunk, between⟩ := x
    obtain ⟨k₁, os₁, hf₁, hk₁⟩ := feeds_total s.port hk chunk
    obtain ⟨a, q₂, hx₂, hk₂, hsame₂, hdel₂⟩ := execOffers_keeps_parser (s := s.putPort ⟨k₁, q.out ++ os₁⟩) (cs := between)
      (putPort_self hq) hk₁ (hparts _ List.mem_cons_self)
    obtain ⟨accept, q₃, k₃, os₃, hx₃, hf₃, hsame₃, hdel₃⟩ := ih (s := (s.withAccept a).putPort q₂)
      (putPort_self (s := s.withAccept a) hq) hk₂ fun y hy => hparts y (List.mem_cons_of_mem _ hy)
    obtain ⟨k, hf, hsame⟩ := hf₃.congr hsame₂.symm
    refine ⟨accept, q₃, k, os₁ ++ os₃, ?_, hf₁.append hf, hsame.symm.trans hsame₃, ?_⟩
    · have hput : ((s.putPort ⟨k₁, q.out ++ os₁⟩).withAccept a).putPort q₂ = (s.withAccept a).putPort q₂ :=
        putPort_putPort (s.withAccept a) _ _
      rw [hput] at hx₂
      simp only [feedChunks, execAll_rxFeed hq hf₁, hx₂, hx₃]
      exact congrArg _ (putPort_putPort (s.withAccept accept) _ _)
    · rw [hdel₃, hdel₂, deliveries_append, deliveries_append, List.append_assoc]

/-- Settles O17: both ways of feeding end as `feedChunks_feeds` says of the bytes of all chunks. -/
theorem chunkingDoesNotMatter : Obligations.ChunkingDoesNotMatter := by
  intro s q parts hs hq hparts
  obtain ⟨accept, q', k, os, hx, hf, hsame, hdel⟩ := feedChunks_feeds hq (blockInv_of_port hs hq) fun x hx c hc => by
    obtain ⟨hwf, hreset, hbyte⟩ := hparts x hx c hc
    exact ⟨hwf, not_or.2 ⟨hreset, not_exists.2 hbyte⟩⟩
  refine ⟨_, _, q', _, hx, execAll_rxFeed hq hf, putPort_self (s := s.withAccept accept) hq, putPort_self hq,
    hsame.ps, hsame.hdr1, hsame.size, hsame.rxIdx, hsame.rxBuf, ?_⟩
  rw [hdel, deliveries_append]

end Sys2Proof.Machine

/-! PROOF. The transmit-FIFO family (R170 to R176): the bytes of a frame, what TX_PUT and TX_SEND answer and leave, which
messages fit, and TX_PUTs until the queue is full. What one instance does is in the laws of the FIFO (`txPutEffect_cases`,
`queued_queue`, `txSendEffect_ok`). -/

namespace Sys2Proof.Machine

/-! ### The bytes of a frame -/

theorem frame_zero (h : Byte) (p : List Byte) : frame h 0x00 p = [0x73, h, 0x00] := if_pos rfl

theorem frame_of_ne_zero {size : Byte} (h : Byte) (p : List Byte) (hs : size ≠ 0x00) :
    frame h size p = [0x73, h, size] ++ cobsEncode p := if_neg hs

theorem frameLen_of_pos {n : Nat} (hn : 1 ≤ n) : frameLen n = n + 4 := if_neg (by omega)

theorem three_le_frameLen (n : Nat) : 3 ≤ frameLen n := by
  unfold frameLen
  split <;> omega

theorem frameLen_le {n : Nat} (hn : n ≤ 254) : frameLen n ≤ 258 := by
  unfold frameLen
  split <;> omega

/-- Settles O21: the two cases of `frame`; the length is `length_frame`. -/
theorem frameBytesAndLength : Obligations.FrameBytesAndLength := by
  refine ⟨fun h => frame_zero h [], ?_, fun _ _ _ _ hp => length_frame hp, rfl, fun n hn _ => frameLen_of_pos hn, by decide⟩
  intro h size p hs _ _
  refine frame_of_ne_zero h p ?_
  rintro rfl
  exact absurd hs (by decide)

/-! ### One TX_PUT -/

theorem ne_0xFF_of_toNat_le {b : Byte} (hb : b.toNat ≤ 254) : b ≠ 0xFF :=
  fun h => absurd ((toNat_eq_255_iff b).2 h) (by omega)

section put
variable {s : State} {q : Port} {h size : Byte} {p : List Byte}

theorem exec_txPut_errLen (hq : s.ports[s.port]? = some q) (hs : size = 0xFF) :
    exec (.txPut h size p) s = .next (s.putPort { q with out := q.out ++ [.response [0x01]] }) :=
  exec_of_answer hq (txPutEffect_errLen ((toNat_eq_255_iff size).2 hs))

theorem exec_txPut_errFull (hq : s.ports[s.port]? = some q) (hp : p.length = size.toNat) (hs : size ≠ 0xFF)
    (hf : s.params.txCap - q.block.txCount < frameLen size.toNat) :
    exec (.txPut h size p) s = .next (s.putPort { q with out := q.out ++ [.response [0x03]] }) :=
  exec_of_answer hq (txPutEffect_errFull (mt (toNat_eq_255_iff size).1 hs) (by rwa [length_frame hp]))

theorem exec_txPut_ok (hq : s.ports[s.port]? = some q) (hp : p.length = size.toNat) (hs : size ≠ 0xFF)
    (hf : frameLen size.toNat ≤ s.params.txCap - q.block.txCount) :
    exec (.txPut h size p) s =
      .next (s.putPort ⟨queued s.params q.block (frame h size p), q.out ++ [.response [0x00]]⟩) :=
  exec_eq_next.2 ⟨q, _, hq, txPutEffect_ok (mt (toNat_eq_255_iff size).1 hs) (by rwa [length_frame hp]), rfl⟩

/-- The status of a TX_PUT of a legal message says whether its frame fits the free space. -/
theorem lastStatus_txPut (hq : s.ports[s.port]? = some q) (hs : size.toNat ≤ 254) (hp : p.length = size.toNat) :
    ∃ t, exec (.txPut h size p) s = .next t ∧
      t.lastStatus = some (if frameLen size.toNat ≤ s.params.txCap - q.block.txCount then 0x00 else 0x03) := by
  split
  · rename_i hf
    exact ⟨_, exec_txPut_ok hq hp (ne_0xFF_of_toNat_le hs) hf, lastStatus_putPort hq⟩
  · rename_i hf
    exact ⟨_, exec_txPut_errFull hq hp (ne_0xFF_of_toNat_le hs) (Nat.not_le.1 hf), lastStatus_putPort hq⟩

end put

section queued
variable {P : Params} {k : Block} {f : List Byte}

@[simp] theorem queued_txHead : (queued P k f).txHead = k.txHead := rfl
@[simp] theorem queued_txCount : (queued P k f).txCount = k.txCount + f.length := rfl

/-- The frame's bytes stand at the ring places from the tail on. -/
theorem read_queued_frame {j : Nat} (hf : f.length ≤ P.txCap) (hj : j < f.length) :
    Memory.read (queued P k f).txBuf ((k.txHead + k.txCount + j) % P.txCap) = f[j]? := by
  have h := congrArg (·[j]?) (map_read_writeAll_zip (m := k.txBuf) (vs := f)
    (ringIndices_nodup (start := k.txHead + k.txCount) hf) (ringIndices_length _ _ _))
  simpa [ringIndices, hj, queued, putPairs] using h

/-- Every other byte of `tx_buf` stays. -/
theorem read_queued_other {i : Nat} (hi : ∀ j < f.length, i ≠ (k.txHead + k.txCount + j) % P.txCap) :
    Memory.read (queued P k f).txBuf i = Memory.read k.txBuf i := by
  refine read_writeAll_other fun c hc => ?_
  obtain ⟨j, hj, hji⟩ := mem_ringIndices.1 (List.of_mem_zip hc).1
  rw [← hji]
  exact (hi j hj).symm

end queued

/-- Settles O22: the three outcomes of TX_PUT; the buffer it leaves is that of `queued`. -/
theorem txPutResult : Obligations.TxPutResult := by
  intro s q h size p hq hp
  refine ⟨exec_txPut_errLen hq, exec_txPut_errFull hq hp, fun hs hf => ⟨(queued s.params q.block (frame h size p)).txBuf, ?_, ?_, ?_⟩⟩
  · rw [exec_txPut_ok hq hp hs hf, ← length_frame (h := h) hp]
    rfl
  · intro j hj
    rw [← length_frame (h := h) hp] at hf hj
    exact read_queued_frame (hf.trans (Nat.sub_le _ _)) hj
  · intro i hi
    rw [← length_frame (h := h) hp] at hi
    exact read_queued_other hi

/-- Settles O23: an answer of OK leaves the instance of `queued`, any other the instance as it was. -/
theorem txPutQueuesWholeFrameOrNothing : Obligations.TxPutQueuesWholeFrameOrNothing := by
  intro s q h size p Q hs hq hp hQ
  by_cases hff : size = 0xFF
  · exact ⟨q.block, 0x01, exec_txPut_errLen hq hff, .inr ⟨by decide, rfl⟩⟩
  rcases Nat.lt_or_ge (s.params.txCap - q.block.txCount) (frameLen size.toNat) with hf | hf
  · exact ⟨q.block, 0x03, exec_txPut_errFull hq hp hff hf, .inr ⟨by decide, rfl⟩⟩
  · have hcap : 0 < s.params.txCap := Nat.zero_lt_of_lt (blockInv_of_port hs hq).head_lt
    have hl : (frame h size p).length = frameLen size.toNat := length_frame hp
    exact ⟨queued s.params q.block (frame h size p), 0x00, exec_txPut_ok hq hp hff hf,
      .inl ⟨rfl, hff, queued_queue (hl.trans_le hf) hcap hQ, by rw [queued_txCount, hl], queued_txHead⟩⟩

/-! ### TX_SEND -/

/-- Settles O24: TX_SEND from a written queue is `exec_txSend`. -/
theorem txSendEmitsOldestBytes : Obligations.TxSendEmitsOldestBytes := by
  intro s q Q hq hQ
  rw [exec_txSend hq hQ, List.append_assoc]
  rfl

/-! ### Which messages fit -/

/-- Settles O27: the status is `lastStatus_txPut`'s, the free space is at most `TX_CAP` and all of it on an empty queue, and the
longest legal frame, of a payload of 254 bytes, has 258. -/
theorem fifoCapacityCorner : Obligations.FifoCapacityCorner := by
  refine ⟨?_, ?_, ?_⟩
  · intro s q h size p hq hs hp hcap
    obtain ⟨t, ht, hst⟩ := lastStatus_txPut (h := h) hq hs hp
    rw [if_neg (by omega)] at hst
    exact ⟨t, ht, hst⟩
  · intro s q hq h0
    constructor
    · intro hall
      have hp : (List.replicate 254 (0x00 : Byte)).length = (0xFE : Byte).toNat := List.length_replicate
      obtain ⟨t, ht, hst⟩ := lastStatus_txPut (h := 0x00) hq (by decide) hp
      obtain ⟨t', ht', hok⟩ := hall 0x00 0xFE _ (by decide) hp
      cases ht.symm.trans ht'
      by_contra hcap
      have hlen : frameLen (0xFE : Byte).toNat = 258 := by decide
      rw [if_neg (by omega), hok] at hst
      exact absurd hst (by decide)
    · intro hcap h size p hs hp
      obtain ⟨t, ht, hst⟩ := lastStatus_txPut (h := h) hq hs hp
      rw [if_pos (by have := frameLen_le hs; omega)] at hst
      exact ⟨t, ht, hst⟩
  · intro s q h size p hq h0 hcap hs hp
    obtain ⟨t, ht, hst⟩ := lastStatus_txPut (h := h) hq hs hp
    have hfit : frameLen size.toNat ≤ s.params.txCap - q.block.txCount ↔ size.toNat ≤ 12 := by
      unfold frameLen
      split <;> omega
    simp only [hfit] at hst
    exact ⟨t, ht, hst⟩

/-! ### TX_PUTs until the queue is full -/

/-- The TX_PUT of a message, given as its `hdr1`, its size and its payload. -/
def msgPut (x : Byte × Byte × List Byte) : Instr := .txPut x.1 x.2.1 x.2.2

/-- The frame of such a message. -/
def msgBytes (x : Byte × Byte × List Byte) : List Byte := frame x.1 x.2.1 x.2.2

/-- A legal message whose frame has `L` bytes. -/
def IsMsgOfLen (L : Nat) (x : Byte × Byte × List Byte) : Prop :=
  x.2.1.toNat ≤ 254 ∧ x.2.2.length = x.2.1.toNat ∧ frameLen x.2.1.toNat = L

/-- The queue holds the frames of the messages `msgs`, each of `L` bytes, as far as whole frames fit the buffer. -/
def HoldsWhatFits (P : Params) (L : Nat) (msgs : List (Byte × Byte × List Byte)) (k : Block) : Prop :=
  k.queue P = .ok ((msgs.take (P.txCap / L)).map msgBytes).flatten ∧ k.txCount = min msgs.length (P.txCap / L) * L

/-- Behind `j` frames of `L` bytes, or as many as fit, there is room for one more exactly when `j` is less than fit. -/
theorem room_iff {cap L j : Nat} (hL : 0 < L) : L ≤ cap - min j (cap / L) * L ↔ j < cap / L := by
  rcases Nat.lt_or_ge j (cap / L) with hj | hj
  · have hfit : (j + 1) * L ≤ cap := (Nat.le_div_iff_mul_le hL).1 hj
    rw [Nat.succ_mul] at hfit
    simp only [min_eq_left hj.le, hj, iff_true]
    omega
  · have hlt : cap < (cap / L + 1) * L := (Nat.div_lt_iff_lt_mul hL).1 (Nat.lt_succ_self _)
    rw [Nat.succ_mul] at hlt
    simp only [min_eq_right hj, Nat.not_lt.2 hj, iff_false]
    omega

section overflow
variable {P : Params} {s : State} {q : Port} {L : Nat} {msgs : List (Byte × Byte × List Byte)}
  {m : Byte × Byte × List Byte}

theorem length_msgBytes (hm : IsMsgOfLen L m) : (msgBytes m).length = L := by
  obtain ⟨-, hp, hL⟩ := hm
  rw [msgBytes, length_frame hp, hL]

theorem IsMsgOfLen.pos (hm : IsMsgOfLen L m) : 0 < L := by
  obtain ⟨-, -, rfl⟩ := hm
  exact Nat.lt_of_lt_of_le (by decide) (three_le_frameLen _)

theorem holdsWhatFits_nil {k : Block} (h0 : k.txCount = 0) : HoldsWhatFits P L [] k :=
  ⟨by simp [Block.queue, h0, ringIndices], by simpa using h0⟩

/-- One more message, when its frame fits. -/
theorem HoldsWhatFits.concat_of_lt {k : Block} (hk : HoldsWhatFits P L msgs k) (hm : IsMsgOfLen L m)
    (hj : msgs.length < P.txCap / L) : HoldsWhatFits P L (msgs ++ [m]) (queued P k (msgBytes m)) := by
  obtain ⟨hQ, hc⟩ := hk
  have hroom : (msgBytes m).length ≤ P.txCap - k.txCount := by
    rw [length_msgBytes hm, hc]
    exact (room_iff hm.pos).2 hj
  have hcap : 0 < P.txCap := by
    have := hm.pos
    have := length_msgBytes hm
    omega
  have hl : (msgs ++ [m]).length ≤ P.txCap / L := by simpa using hj
  refine ⟨?_, ?_⟩
  · rw [queued_queue hroom hcap hQ, List.take_of_length_le hj.le, List.take_of_length_le hl]
    simp
  · rw [queued_txCount, hc, length_msgBytes hm, min_eq_left hj.le, min_eq_left hl, List.length_append,
      List.length_singleton, Nat.succ_mul]

/-- One more message, when no frame fits any more. -/
theorem HoldsWhatFits.concat_of_le {k : Block} (hk : HoldsWhatFits P L msgs k) (hj : P.txCap / L ≤ msgs.length) :
    HoldsWhatFits P L (msgs ++ [m]) k := by
  obtain ⟨hQ, hc⟩ := hk
  refine ⟨by rw [hQ, List.take_append_of_le_length hj], ?_⟩
  rw [hc, min_eq_right hj, min_eq_right (by simp; omega)]

/-- The next TX_PUT: it answers OK exactly when its frame is among those that fit. -/
theorem exec_msgPut (hq : s.ports[s.port]? = some q) (hk : HoldsWhatFits s.params L msgs q.block) (hm : IsMsgOfLen L m) :
    ∃ q', exec (msgPut m) s = .next (s.putPort q') ∧ HoldsWhatFits s.params L (msgs ++ [m]) q'.block ∧
      ((s.putPort q').lastStatus = some 0x00 ↔ msgs.length < s.params.txCap / L) := by
  obtain ⟨hs, hp, hL⟩ := id hm
  have hroom : frameLen m.2.1.toNat ≤ s.params.txCap - q.block.txCount ↔ msgs.length < s.params.txCap / L := by
    rw [hL, hk.2, room_iff hm.pos]
  by_cases hj : msgs.length < s.params.txCap / L
  · refine ⟨_, exec_txPut_ok hq hp (ne_0xFF_of_toNat_le hs) (hroom.2 hj), hk.concat_of_lt hm hj, ?_⟩
    exact iff_of_true (lastStatus_putPort hq) hj
  · refine ⟨_, exec_txPut_errFull hq hp (ne_0xFF_of_toNat_le hs) (Nat.not_le.1 (mt hroom.1 hj)),
      hk.concat_of_le (Nat.not_lt.1 hj), iff_of_false ?_ hj⟩
    rw [lastStatus_putPort hq]
    decide

/-- TX_PUTs from an empty queue, by induction on the messages, the last one first. -/
theorem execAll_msgPut (hq : s.ports[s.port]? = some q) (h0 : q.block.txCount = 0) (hm : ∀ x ∈ msgs, IsMsgOfLen L x) :
    ∃ q', execAll (msgs.map msgPut) s = .next (s.putPort q') ∧ HoldsWhatFits s.params L msgs q'.block := by
  induction msgs using List.reverseRecOn with
  | nil => exact ⟨q, congrArg _ (putPort_eq_self hq).symm, holdsWhatFits_nil h0⟩
  | append_singleton msgs m ih =>
    obtain ⟨q₁, hx₁, hk₁⟩ := ih fun x hx => hm x (by simp [hx])
    obtain ⟨q₂, hx₂, hk₂, -⟩ := exec_msgPut (s := s.putPort q₁) (putPort_self hq) hk₁ (hm m (by simp))
    refine ⟨q₂, ?_, hk₂⟩
    rw [List.map_append, execAll_append _ hx₁, List.map_singleton, execAll_cons _ hx₂, putPort_putPort]
    rfl

end overflow

/-- Settles O28: the messages put before leave what fits of them (`execAll_msgPut`), and the last one is one more
(`exec_msgPut`). -/
theorem overflowEventuallyRefuses : Obligations.OverflowEventuallyRefuses := by
  intro s q L msgs m _ hq h0 _ hall
  have hm : IsMsgOfLen L m := hall m (by simp)
  obtain ⟨q₁, hx₁, hk₁⟩ := execAll_msgPut (msgs := msgs) (L := L) hq h0 fun x hx => hall x (by simp [hx])
  obtain ⟨q₂, hx₂, ⟨hQ₂, -⟩, hst⟩ := exec_msgPut (s := s.putPort q₁) (putPort_self hq) hk₁ hm
  refine ⟨_, _, q₂, hx₁, hx₂, hst.trans (Nat.le_div_iff_mul_le hm.pos), ?_, hQ₂⟩
  exact putPort_self (s := s.putPort q₁) (putPort_self hq)

end Sys2Proof.Machine

/-! PROOF. The control family (R200, R201): what STATUS answers, and the step of an unassigned opcode. -/

namespace Sys2Proof

/-! ### The unassigned opcodes -/

/-- A byte other than the seven of R75 is an unassigned opcode. -/
theorem Opcode.ofByte_eq_none {op : Byte} (h : op ∉ ([0x01, 0x02, 0x10, 0x11, 0x20, 0x21, 0x30] : List Byte)) :
    Opcode.ofByte op = none := by
  cases ho : Opcode.ofByte op with
  | none => rfl
  | some o =>
    obtain rfl := Opcode.toByte_of_ofByte ho
    exact absurd h (by cases o <;> decide)

/-- An unassigned opcode is a whole packet (R75, R84). -/
theorem decodePacket_illegal {op : Byte} (h : Opcode.ofByte op = none) : decodePacket [op] = .ok (.illegal op) :=
  decodePacket_encode (c := .illegal op) (by simp [Command.wf, h])

/-- The numbers of listed bytes are the numbers below 256 whose byte is listed. -/
theorem map_toNat_perm_filter_range {l : List Byte} (hl : l.Nodup) :
    (l.map BitVec.toNat).Perm ((List.range 256).filter fun n => decide ((BitVec.ofNat 8 n : Byte) ∈ l)) := by
  refine (List.perm_ext_iff_of_nodup (hl.map fun _ _ => BitVec.eq_of_toNat_eq) (List.nodup_range.filter _)).2 fun n => ?_
  simp only [List.mem_map, List.mem_filter, List.mem_range, decide_eq_true_eq]
  constructor
  · rintro ⟨b, hb, rfl⟩
    exact ⟨b.isLt, by rwa [BitVec.ofNat_toNat, BitVec.setWidth_eq]⟩
  · rintro ⟨hn, hb⟩
    exact ⟨_, hb, Nat.mod_eq_of_lt hn⟩

/-- Of the 256 byte values, all but the listed ones are left. -/
theorem length_filter_not_mem {l : List Byte} (hl : l.Nodup) :
    ((List.range 256).filter fun n => decide ((BitVec.ofNat 8 n : Byte) ∉ l)).length = 256 - l.length := by
  have hsum := List.length_eq_length_filter_add (l := List.range 256) fun n => decide ((BitVec.ofNat 8 n : Byte) ∈ l)
  rw [← (map_toNat_perm_filter_range hl).length_eq, List.length_map, List.length_range] at hsum
  simp only [decide_not]
  omega

end Sys2Proof

namespace Sys2Proof.Machine

/-! ### STATUS -/

/-- STATUS on its instance (R200). -/
theorem exec_status {s : State} {q : Port} (hq : s.ports[s.port]? = some q) :
    exec .status s = .next (s.putPort { q with out := q.out ++ [.response (statusResponse s.params q.block)] }) :=
  exec_of_answer hq rfl

/-- Settles O31: STATUS answers `statusResponse`, whose bytes are the register view of R33 field by field. -/
theorem statusAnswersRegisterView : Obligations.StatusAnswersRegisterView := fun _ _ hq => exec_status hq

/-! ### An unassigned opcode -/

/-- A step that takes an unassigned opcode only answers `ERR_ILLEGAL` on the instance it was presented to (R201). -/
theorem step_illegal {s : State} {q : Port} {n a : Nat} {op : Byte} {rest : List Input} (ho : Opcode.ofByte op = none)
    (hr : s.resetSeen = true) (hin : s.inputs = .command n [op] a :: rest) (hq : s.ports[n]? = some q) :
    step s = .next (s.afterCommand rest n a { q with out := q.out ++ [.response [0x05]] }) :=
  (step_command_eq_next hin).2 ⟨hr, _, q, _, decodePacket_illegal ho, hq, rfl, rfl⟩

/-- Settles O32: the step is `step_illegal`; the values not assigned are 256 less the seven of the
list (`length_filter_not_mem`). -/
theorem unassignedOpcodeAnswersIllegal : Obligations.UnassignedOpcodeAnswersIllegal :=
  ⟨fun _ _ _ _ _ _ ho hr hin hq => step_illegal (Opcode.ofByte_eq_none ho) hr hin hq, length_filter_not_mem (by decide)⟩

end Sys2Proof.Machine

/-! PROOF. The exceptions family (R220 to R232): that every command completes, that an answered error changes no instance's state,
and that nothing happens between commands. -/

namespace Sys2Proof.Machine

/-! ### Every command completes -/

/-- From the invariant a command answers next on an instance that exists: there it does not fault (`effectOf_total`). -/
theorem exec_total {s : State} (hs : s.Inv) (hn : s.port < s.params.numPorts) (i : Instr) : ∃ t, exec i s = .next t := by
  have hq : s.ports[s.port]? = some _ := List.getElem?_eq_getElem (hs.ports.symm ▸ hn)
  obtain ⟨e, he⟩ := effectOf_total (port := s.port) (A := s.accept) (blockInv_of_port hs hq) i
  exact ⟨_, exec_eq_next.2 ⟨_, e, hq, he, rfl⟩⟩

/-- Settles O38: `exec_total` for each constructor. -/
theorem everyCommandCompletes : Obligations.EveryCommandCompletes := by
  intro s hs hn
  have hnext : ∀ i, ∃ t, exec i s = .next t := exec_total hs hn
  exact ⟨fun _ _ _ => hnext _, fun _ _ _ => hnext _, fun _ => hnext _, hnext _, fun _ _ _ _ => hnext _, hnext _, hnext _⟩

/-! ### What an error leaves -/

/-- ENC answers `OK` or `ERR_LEN` (R102). -/
theorem encResponse_status (n : Byte) (p : List Byte) : ∃ st r, encResponse n p = st :: r ∧ (st = 0x00 ∨ st = 0x01) := by
  unfold encResponse
  split
  · exact ⟨_, _, rfl, .inr rfl⟩
  · exact ⟨_, _, rfl, .inl rfl⟩

/-- DEC answers `OK`, `ERR_LEN` or `ERR_MALFORMED` (R103). -/
theorem decResponse_status (m : Byte) (e : List Byte) :
    ∃ st r, decResponse m e = st :: r ∧ (st = 0x00 ∨ st = 0x01 ∨ st = 0x02) := by
  unfold decResponse
  split
  · exact ⟨_, _, rfl, .inr (.inl rfl)⟩
  · cases cobsDecode e with
    | none => exact ⟨_, _, rfl, .inr (.inr rfl)⟩
    | some r => exact ⟨_, _, rfl, .inl rfl⟩

/-- What R221 says of one command on one instance: it answers once, and with a status other than `OK` only an error code of R74
with the instance as it was. -/
def ErrorUnchanged (k : Block) (e : Effect) : Prop :=
  ∃ st r, e.out = [.response (st :: r)] ∧ (st ≠ 0x00 → (st = 0x01 ∨ st = 0x02 ∨ st = 0x03) ∧ e.block = k)

section effects
variable {P : Params} {port A : Nat} {k : Block} {e : Effect}

theorem txPutEffect_errorUnchanged {h size : Byte} {p : List Byte} (he : txPutEffect P h size p k = .ok e) :
    ErrorUnchanged k e := by
  rcases txPutEffect_cases P h size p k with ⟨-, ho⟩ | ⟨-, -, ho⟩ | ⟨-, -, ho⟩ <;> cases ho.symm.trans he
  · exact ⟨_, _, rfl, fun _ => ⟨.inl rfl, rfl⟩⟩
  · exact ⟨_, _, rfl, fun _ => ⟨.inr (.inr rfl), rfl⟩⟩
  · exact ⟨_, _, rfl, fun h0 => absurd rfl h0⟩

/-- ENC and DEC write no state whatever they answer; TX_PUT writes the queue only when it answers `OK`. -/
theorem effectOf_errorUnchanged {i : Instr}
    (hi : (∃ n p, i = .enc n p) ∨ (∃ m b, i = .dec m b) ∨ ∃ h size p, i = .txPut h size p)
    (he : effectOf P port A i k = .ok e) : ErrorUnchanged k e := by
  obtain ⟨n, p, rfl⟩ | ⟨m, b, rfl⟩ | ⟨h, size, p, rfl⟩ := hi
  · cases he
    obtain ⟨st, r, hr, hst⟩ := encResponse_status n p
    exact ⟨st, r, by rw [Block.answer_out, hr], fun h0 => ⟨.inl (hst.resolve_left h0), rfl⟩⟩
  · cases he
    obtain ⟨st, r, hr, hst⟩ := decResponse_status m b
    exact ⟨st, r, by rw [Block.answer_out, hr], fun h0 => ⟨(hst.resolve_left h0).imp_right .inl, rfl⟩⟩
  · exact txPutEffect_errorUnchanged he

end effects

/-- An instance put back with other outputs leaves every instance's state as it was. -/
theorem putPort_map_block {s : State} {q : Port} (os : List Output) (hq : s.ports[s.port]? = some q) :
    (s.putPort ⟨q.block, os⟩).ports.map Port.block = s.ports.map Port.block := by
  have hself : (s.putPort q).ports = s.ports := by rw [putPort_eq_self hq]
  calc (s.putPort ⟨q.block, os⟩).ports.map Port.block
      = (s.putPort q).ports.map Port.block := by simp only [State.putPort_ports, List.map_set]
    _ = s.ports.map Port.block := by rw [hself]

/-- Settles O47: the status read back is the one the command answered (`lastStatus_putPort`), and with an error the instance
put back is the one taken. -/
theorem errorsLeaveStateUnchanged : Obligations.ErrorsLeaveStateUnchanged := by
  intro s t i st hi h hst h0
  obtain ⟨q, ⟨k, os⟩, hq, he, rfl⟩ := exec_eq_next.1 h
  obtain ⟨st', r, rfl, herr⟩ := effectOf_errorUnchanged hi he
  obtain rfl : st' = st := Option.some.inj ((lastStatus_putPort hq).symm.trans hst)
  obtain ⟨hcode, rfl⟩ := herr h0
  exact ⟨hcode, putPort_map_block _ hq⟩

/-! ### Between commands -/

/-- The converse of `fetch_idle`. -/
theorem fetch_of_inputs_nil {s : State} (h : s.inputs = []) : fetch s = .idle := by simp only [fetch, h]

/-- Settles O50: with no input the fetch is idle, and an idle step leaves the state. -/
theorem nothingHappensBetweenCommands : Obligations.NothingHappensBetweenCommands := by
  intro s h
  simp only [step, fetch_of_inputs_nil h]

end Sys2Proof.Machine

/-! PROOF. The family of reset and hazards (R250 to R258): RX_BYTE and TX_PUT in either order, what every step keeps, and the
presentations that are refused. -/

namespace Sys2Proof.Machine

/-! ### RX_BYTE and TX_PUT in either order

RX_BYTE works on the parser registers and `rx_buf`, TX_PUT on the FIFO; each is the same whatever the other's part holds. -/

/-- The parser of `k` with the FIFO of `f`. -/
def Block.withFifoOf (k f : Block) : Block :=
  { k with txBuf := f.txBuf, txHead := f.txHead, txCount := f.txCount }

section commute
variable {P : Params} {port : Nat} {b h size : Byte} {p : List Byte} {k : Block} {a : ArmEffect} {e : Effect}

/-- TX_PUT sees the FIFO alone: beside any parser it does the same to it. -/
theorem txPutEffect_withFifoOf (he : txPutEffect P h size p k = .ok e) (k' : Block) :
    txPutEffect P h size p (k'.withFifoOf k) = .ok { e with block := k'.withFifoOf e.block } := by
  rcases txPutEffect_cases P h size p k with ⟨hs, ho⟩ | ⟨hs, hf, ho⟩ | ⟨hs, hf, ho⟩ <;> cases ho.symm.trans he
  · exact txPutEffect_errLen hs
  · exact txPutEffect_errFull hs hf
  · exact txPutEffect_ok hs hf

/-- TX_PUT keeps the parser of its instance. -/
theorem txPutEffect_block (he : txPutEffect P h size p k = .ok e) : k.withFifoOf e.block = e.block :=
  congrArg Effect.block (Except.ok.inj ((txPutEffect_withFifoOf he k).symm.trans he))

/-- An arm of RX_BYTE keeps the FIFO of its instance. -/
theorem withFifoOf_rxByteArm (ha : rxByteArm P port b k = .ok a) : k.withFifoOf a.block = k := by
  obtain ⟨hbuf, hhead, hcount⟩ := rxByteArm_fifo ha
  rw [Block.withFifoOf, hbuf, hhead, hcount]

/-- On one instance a TX_PUT that follows an arm of RX_BYTE can go before it: it puts out the same, the arm does too, and the
instance is left the same. -/
theorem rxByteArm_txPut_comm (ha : rxByteArm P port b k = .ok a) (he : txPutEffect P h size p a.block = .ok e) :
    txPutEffect P h size p k = .ok { e with block := k.withFifoOf e.block } ∧
      rxByteArm P port b (k.withFifoOf e.block) = .ok { a with block := e.block } := by
  constructor
  · simpa only [withFifoOf_rxByteArm ha] using txPutEffect_withFifoOf he k
  · have hcongr : rxByteArm P port b (k.withFifoOf e.block) = .ok { a with block := a.block.withFifoOf e.block } :=
      rxByteArm_congr ha rfl rfl rfl rfl rfl
    rwa [txPutEffect_block he] at hcongr

end commute

/-- Settles O45: on the instance the two commute (`rxByteArm_txPut_comm`), and TX_PUT only adds a response, which is neither a
delivery nor a transport byte, wherever it stands. -/
theorem replyOrderDoesNotMatter : Obligations.ReplyOrderDoesNotMatter := by
  intro s t u b h size p r ht hu hr
  obtain ⟨q, er, hq, her, rfl⟩ := exec_eq_next.1 ht
  obtain ⟨q₁, e, hq₁, he, rfl⟩ := exec_eq_next.1 hu
  obtain ⟨a, ha, rfl⟩ := rxByteEffect_eq_ok.1 her
  cases (putPort_self hq).symm.trans hq₁
  cases (putPort_self (s := s.putPort _) (putPort_self hq)).symm.trans hr
  obtain ⟨hput, harm⟩ := rxByteArm_txPut_comm ha he
  obtain ⟨st, hout, -⟩ := txPutEffect_transmitted (q := ⟨a.block, q.out⟩) he
  refine ⟨_, _, _, exec_eq_next.2 ⟨q, _, hq, hput, rfl⟩,
    exec_eq_next.2 ⟨_, _, putPort_self hq, rxByteEffect_eq_ok.2 ⟨_, harm, rfl⟩, rfl⟩,
    putPort_self (s := s.putPort _) (putPort_self hq), rfl, ?_, ?_⟩
  · simp only [hout, deliveries_append, deliveries, List.append_nil]
  · simp only [hout, txBytes_append, txBytes, List.append_nil]

/-! ### What every step keeps -/

/-- From `s` to `t` the parameters, the number of instances and what each instance has emitted are kept (R251 (1), R252). -/
structure KeepsEmitted (s t : State) : Prop where
  params : t.params = s.params
  length : t.ports.length = s.ports.length
  out : ∀ (n : Nat) (q q' : Port), s.ports[n]? = some q → t.ports[n]? = some q' → q.out <+: q'.out

theorem KeepsEmitted.refl (s : State) : KeepsEmitted s s := by
  refine ⟨rfl, rfl, fun n q q' hq hq' => ?_⟩
  cases hq.symm.trans hq'
  exact List.prefix_rfl

/-- Reset keeps what has left each instance (R252). -/
theorem keepsEmitted_resetAll (s : State) : KeepsEmitted s s.resetAll := by
  refine ⟨rfl, by simp, fun n q q' hq hq' => ?_⟩
  obtain rfl : q.reset = q' := by simpa [hq] using hq'
  exact List.prefix_rfl

/-- A command adds to what has left its instance, and leaves the others alone. -/
theorem execCommand_keepsEmitted {c : Command} {s t : State} (h : execCommand c s = .next t) : KeepsEmitted s t := by
  rw [execCommand_eq_onPort] at h
  obtain ⟨p, e, hp, -, rfl⟩ := onPort_eq_next.1 h
  refine ⟨rfl, by simp, fun n q q' hq hq' => ?_⟩
  rcases putPort_ports_cases hp hq' with ⟨rfl, rfl⟩ | ⟨-, hsame⟩
  · cases hp.symm.trans hq
    exact List.prefix_append _ _
  · cases hq.symm.trans hsame
    exact List.prefix_rfl

/-- The fetch gives a state with the parameters and the instances of `s`, so what is kept from that state is kept from `s`. -/
theorem KeepsEmitted.of_ports {s u t : State} (h : KeepsEmitted u t) (hP : u.params = s.params) (hq : u.ports = s.ports) :
    KeepsEmitted s t :=
  ⟨hP ▸ h.params, hq ▸ h.length, hq ▸ h.out⟩

theorem step_keepsEmitted {s t : State} (h : step s = .next t) : KeepsEmitted s t := by
  rcases step_cases h with ⟨-, rfl⟩ | ⟨u, hf, rfl⟩ | ⟨i, u, hf, hx⟩ | ⟨op, u, hf, hx⟩
  · exact .refl t
  · obtain ⟨rest, rfl, -⟩ := fetch_reset hf
    exact (keepsEmitted_resetAll _).of_ports rfl rfl
  · obtain ⟨-, n, packet, a, rest, -, -, -, rfl⟩ := fetch_run hf
    exact (execCommand_keepsEmitted (c := .instr i) hx).of_ports rfl rfl
  · obtain ⟨n, packet, a, rest, -, -, -, rfl⟩ := fetch_illegal hf
    exact (execCommand_keepsEmitted (c := .illegal op) hx).of_ports rfl rfl

/-- Settles O46: `step_keepsEmitted`, by cases on what the step did. -/
theorem outputsAndParametersAreKept : Obligations.OutputsAndParametersAreKept := by
  intro s t h
  obtain ⟨hparams, hlength, hout⟩ := step_keepsEmitted h
  exact ⟨hparams, hlength, hout⟩

/-! ### What is refused -/

section refused
variable {s : State} {n a : Nat} {packet : List Byte} {rest : List Input}

/-- An overlapping command is refused (R253), before the first reset as any command then (log 26). -/
theorem step_overlap (hin : s.inputs = .overlap n packet :: rest) :
    step s = .refused (if s.resetSeen then .overlappingCommand else .beforeReset) := by
  simp only [step, fetch, hin]

/-- Before the first reset a command is refused, whatever its packet (R251 (2)). -/
theorem step_command_beforeReset (hr : s.resetSeen = false) (hin : s.inputs = .command n packet a :: rest) :
    step s = .refused .beforeReset := by
  simp [step, fetch, hin, fetchCommand, hr]

/-- A packet to an instance that does not exist is refused (log 12). -/
theorem step_noSuchPort {c : Command} (hr : s.resetSeen = true) (hd : decodePacket packet = .ok c)
    (hn : s.ports.length ≤ n) (hin : s.inputs = .command n packet a :: rest) : step s = .refused .noSuchPort := by
  rw [step_eq_execCommand hr hin hd, execCommand_eq_onPort]
  exact onPort_eq_refused.2 ⟨List.getElem?_eq_none hn, rfl⟩

end refused

/-- Settles O49: an overlap and a command before reset are refused by the fetch; a packet that decodes, to an instance that does
not exist, by the command. -/
theorem illegalPresentationsAreRefused : Obligations.IllegalPresentationsAreRefused := by
  refine ⟨fun s n packet rest hr hin => ?_, fun s n packet rest hr hin => ?_,
    fun _ _ _ _ _ hr hin => step_command_beforeReset hr hin,
    fun _ _ _ _ i hr hi hn hin => step_noSuchPort hr (decodePacket_encode (c := .instr i) hi) hn hin,
    fun _ _ _ _ _ hr ho hn hin => step_noSuchPort hr (decodePacket_illegal (Opcode.ofByte_eq_none ho)) hn hin⟩
  · simp [step_overlap hin, hr]
  · simp [step_overlap hin, hr]

end Sys2Proof.Machine
